-- ==== Sys2Proof/Word.lean ====
section
/-! DEFINITION. The words of the CHIP-8 CORE: bytes, 16-bit words, 12-bit addresses, register indices and
instants of the real-time clock (spec 00_scope.md R5, R7; 10_state.md R10, R25). -/

namespace Sys2Proof

/-- An unsigned 8-bit value: a general register, a memory byte, an immediate NN (R5, R10). -/
abbrev Byte := BitVec 8

/-- An unsigned 16-bit value: I, PC, a return address, an instruction word (R5, R16, R18, R60). -/
abbrev Word := BitVec 16

/-- The 12-bit address field NNN of an instruction word (R61). -/
abbrev Addr12 := BitVec 12

/-- A register index X or Y, 0 to 15; every value of the 4-bit field names a register (R10). -/
abbrev Reg := Fin 16

/-- The row count N of DXYN, 0 to 15 (R62). -/
abbrev RowCount := Fin 16

/-- An instant of the monotone real-time clock in seconds.  The spec's `Time` is any ordered domain on which
`floor((t1 - t0) * 60)` is computable (R6, D6); the rationals are one (log 5). -/
abbrev Time := Rat

/-- The later of two instants. -/
def Time.later (a b : Time) : Time := if a ≤ b then b else a

/-- `zext_16` of a 12-bit address (R62). -/
def zext16 {n : Nat} (a : BitVec n) : Word := a.setWidth 16

end Sys2Proof
end

