-- ==== Sys2Proof/Syntax.lean ====
section
/-! DEFINITION. The 34 instructions of the CHIP-8 CORE (spec 30_encoding.md R66), one constructor per row of
the opcode table, in its order.  Operands are typed by their fields (R61, R62), so a term of `Instr` cannot carry
an operand its encoding has no bits for. -/

namespace Sys2Proof

/-- An instruction of the CHIP-8 CORE (R66). -/
inductive Instr where
  /-- 00E0, CLS: clear the framebuffer (R130). -/
  | cls
  /-- 00EE, RET: return from subroutine (R90). -/
  | ret
  /-- 1NNN, JP NNN: jump (R91). -/
  | jp (nnn : Addr12)
  /-- 2NNN, CALL NNN: call subroutine (R92). -/
  | call (nnn : Addr12)
  /-- 3XNN, SE Vx, NN: skip if equal to immediate (R94). -/
  | seImm (x : Reg) (nn : Byte)
  /-- 4XNN, SNE Vx, NN: skip if not equal to immediate (R95). -/
  | sneImm (x : Reg) (nn : Byte)
  /-- 5XY0, SE Vx, Vy: skip if registers equal (R96). -/
  | seReg (x y : Reg)
  /-- 6XNN, LD Vx, NN: load immediate (R100). -/
  | ldImm (x : Reg) (nn : Byte)
  /-- 7XNN, ADD Vx, NN: add immediate without carry (R101). -/
  | addImm (x : Reg) (nn : Byte)
  /-- 8XY0, LD Vx, Vy: copy (R102). -/
  | ldReg (x y : Reg)
  /-- 8XY1, OR Vx, Vy (R103). -/
  | orReg (x y : Reg)
  /-- 8XY2, AND Vx, Vy (R104). -/
  | andReg (x y : Reg)
  /-- 8XY3, XOR Vx, Vy (R105). -/
  | xorReg (x y : Reg)
  /-- 8XY4, ADD Vx, Vy: add with carry flag (R106). -/
  | addReg (x y : Reg)
  /-- 8XY5, SUB Vx, Vy: subtract with no-borrow flag (R107). -/
  | subReg (x y : Reg)
  /-- 8XY6, SHR Vx: shift right one bit; Y is encoded and ignored (R71, R108). -/
  | shr (x y : Reg)
  /-- 8XY7, SUBN Vx, Vy: reverse subtract (R109). -/
  | subnReg (x y : Reg)
  /-- 8XYE, SHL Vx: shift left one bit; Y is encoded and ignored (R71, R110). -/
  | shl (x y : Reg)
  /-- 9XY0, SNE Vx, Vy: skip if registers differ (R97). -/
  | sneReg (x y : Reg)
  /-- ANNN, LD I, NNN: load index (R120). -/
  | ldI (nnn : Addr12)
  /-- BNNN, JP V0, NNN: jump with offset V0 (R93). -/
  | jpV0 (nnn : Addr12)
  /-- CXNN, RND Vx, NN: masked random byte (R111). -/
  | rnd (x : Reg) (nn : Byte)
  /-- DXYN, DRW Vx, Vy, N: draw sprite (R131). -/
  | drw (x y : Reg) (n : RowCount)
  /-- EX9E, SKP Vx: skip if key pressed (R140). -/
  | skp (x : Reg)
  /-- EXA1, SKNP Vx: skip if key not pressed (R141). -/
  | sknp (x : Reg)
  /-- FX07, LD Vx, DT: read the delay timer (R150). -/
  | ldVxDT (x : Reg)
  /-- FX0A, LD Vx, K: non-blocking key wait (R143). -/
  | ldVxK (x : Reg)
  /-- FX15, LD DT, Vx: set the delay timer (R151). -/
  | ldDT (x : Reg)
  /-- FX18, LD ST, Vx: set the sound timer (R152). -/
  | ldST (x : Reg)
  /-- FX1E, ADD I, Vx: add register to index (R121). -/
  | addI (x : Reg)
  /-- FX29, LD F, Vx: point I at a font glyph (R122). -/
  | ldF (x : Reg)
  /-- FX33, LD B, Vx: store binary-coded decimal (R123). -/
  | ldB (x : Reg)
  /-- FX55, LD [I], Vx: store registers V0 to Vx (R124). -/
  | storeRegs (x : Reg)
  /-- FX65, LD Vx, [I]: load registers V0 to Vx (R125). -/
  | loadRegs (x : Reg)
deriving DecidableEq, Repr

end Sys2Proof
end

