-- ==== Sys2Proof/WellFormed.lean ====
section
/-! DEFINITION. Well-formed instruction words.  A term of `Instr` is well-formed by its type (every operand has
exactly the values its field has, R61, R62), so what is left to check is on the encoded side: which combinations
of fields name an instruction at all.  `Fields.wf` is that check, written from the dispatch keys of
spec 30_encoding.md R64 independently of the decoder. -/

namespace Sys2Proof

/-- The four nibbles of an instruction word, most significant first, as the decoder extracts them (R61). -/
structure Fields where
  n0 : BitVec 4
  n1 : BitVec 4
  n2 : BitVec 4
  n3 : BitVec 4
deriving DecidableEq, Repr

/-- `address12 = n1<<8 | n2<<4 | n3` (R61). -/
def Fields.address12 (f : Fields) : Addr12 := f.n1 ++ f.n2 ++ f.n3

/-- `immediate8 = low` (R61). -/
def Fields.immediate8 (f : Fields) : Byte := f.n2 ++ f.n3

/-- `regX = n1` (R61). -/
def Fields.regX (f : Fields) : Reg := f.n1.toFin

/-- `regY = n2` (R61). -/
def Fields.regY (f : Fields) : Reg := f.n2.toFin

/-- `subop = n3` as DXYN's row count N (R61, R62). -/
def Fields.rows (f : Fields) : RowCount := f.n3.toFin

/-- Family 0: the whole word is 0x00E0 or 0x00EE (R64, D2). -/
def Fields.wfZero (f : Fields) : Bool :=
  f.n1 == 0 && (f.immediate8 == 0xE0 || f.immediate8 == 0xEE)

/-- Families 5 and 9: n3 is 0 (R64). -/
def Fields.wfSkipReg (f : Fields) : Bool := f.n3 == 0

/-- Family 8: n3 is 0 to 7 or 0xE (R64, R67). -/
def Fields.wfAlu (f : Fields) : Bool := f.n3.toNat ≤ 7 || f.n3 == 0xE

/-- Family E: the low byte is 0x9E or 0xA1 (R64, R67). -/
def Fields.wfKey (f : Fields) : Bool := f.immediate8 == 0x9E || f.immediate8 == 0xA1

/-- Family F: the low byte is one of the nine values of R64. -/
def Fields.wfMisc (f : Fields) : Bool :=
  [0x07, 0x0A, 0x15, 0x18, 0x1E, 0x29, 0x33, 0x55, 0x65].contains f.immediate8.toNat

/-- The fields name one of the 34 instructions (R64): every word that fails this is one of R68's illegal words. -/
def Fields.wf (f : Fields) : Bool :=
  if f.n0 = 0 then f.wfZero
  else if f.n0 = 5 ∨ f.n0 = 9 then f.wfSkipReg
  else if f.n0 = 8 then f.wfAlu
  else if f.n0 = 0xE then f.wfKey
  else if f.n0 = 0xF then f.wfMisc
  else true

end Sys2Proof
end

