-- ==== Sys2Proof/Decode.lean ====
section
/-! DEFINITION. The instruction decoder and dispatcher (spec 30_encoding.md R60 to R68), total on any bytes and
rejecting by name; then the encoder and the opcode table of R66. -/

namespace Sys2Proof

/-- Why a sequence of bytes gives no instruction. -/
inductive DecodeError where
  /-- Fewer than two bytes: no instruction word is there (R60).  The machine never meets this, since fetch
  delivers two bytes or faults. -/
  | truncated
  /-- The word matches no row of the opcode table (R68); the two bytes are the ones UnknownOpcode reports (R166). -/
  | unknownOpcode (high low : Byte)
deriving DecidableEq, Repr

/-- Field extraction: a total function of the two bytes (R61, R63). -/
def extractFields (high low : Byte) : Fields :=
  { n0 := high.extractLsb' 4 4, n1 := high.extractLsb' 0 4,
    n2 := low.extractLsb' 4 4, n3 := low.extractLsb' 0 4 }

/-- Family 0, keyed by the whole word (R64, D2). -/
def dispatchZero (f : Fields) : Option Instr :=
  if f.n1 = 0 then
    match f.immediate8 with
    | 0xE0#8 => some .cls
    | 0xEE#8 => some .ret
    | _ => none
  else none

/-- Family 8, keyed by n3 (R64, R67). -/
def dispatchAlu (f : Fields) : Option Instr :=
  match f.n3 with
  | 0x0#4 => some (.ldReg f.regX f.regY)
  | 0x1#4 => some (.orReg f.regX f.regY)
  | 0x2#4 => some (.andReg f.regX f.regY)
  | 0x3#4 => some (.xorReg f.regX f.regY)
  | 0x4#4 => some (.addReg f.regX f.regY)
  | 0x5#4 => some (.subReg f.regX f.regY)
  | 0x6#4 => some (.shr f.regX f.regY)
  | 0x7#4 => some (.subnReg f.regX f.regY)
  | 0xE#4 => some (.shl f.regX f.regY)
  | _ => none

/-- Family E, keyed by the low byte (R64, R67). -/
def dispatchKey (f : Fields) : Option Instr :=
  match f.immediate8 with
  | 0x9E#8 => some (.skp f.regX)
  | 0xA1#8 => some (.sknp f.regX)
  | _ => none

/-- Family F, keyed by the low byte (R64, R67). -/
def dispatchMisc (f : Fields) : Option Instr :=
  match f.immediate8 with
  | 0x07#8 => some (.ldVxDT f.regX)
  | 0x0A#8 => some (.ldVxK f.regX)
  | 0x15#8 => some (.ldDT f.regX)
  | 0x18#8 => some (.ldST f.regX)
  | 0x1E#8 => some (.addI f.regX)
  | 0x29#8 => some (.ldF f.regX)
  | 0x33#8 => some (.ldB f.regX)
  | 0x55#8 => some (.storeRegs f.regX)
  | 0x65#8 => some (.loadRegs f.regX)
  | _ => none

/-- Dispatch: exactly one instruction, or none where the word is illegal (R64, R68, R83).  The last arm stands for no
value: n0 has sixteen. -/
def dispatch (f : Fields) : Option Instr :=
  match f.n0 with
  | 0x0#4 => dispatchZero f
  | 0x1#4 => some (.jp f.address12)
  | 0x2#4 => some (.call f.address12)
  | 0x3#4 => some (.seImm f.regX f.immediate8)
  | 0x4#4 => some (.sneImm f.regX f.immediate8)
  | 0x5#4 => if f.n3 = 0 then some (.seReg f.regX f.regY) else none
  | 0x6#4 => some (.ldImm f.regX f.immediate8)
  | 0x7#4 => some (.addImm f.regX f.immediate8)
  | 0x8#4 => dispatchAlu f
  | 0x9#4 => if f.n3 = 0 then some (.sneReg f.regX f.regY) else none
  | 0xA#4 => some (.ldI f.address12)
  | 0xB#4 => some (.jpV0 f.address12)
  | 0xC#4 => some (.rnd f.regX f.immediate8)
  | 0xD#4 => some (.drw f.regX f.regY f.rows)
  | 0xE#4 => dispatchKey f
  | 0xF#4 => dispatchMisc f
  | _ => none

/-- Decode the two fetched bytes, or reject the word by name (R81, R83). -/
def decodePair (high low : Byte) : Except DecodeError Instr :=
  match dispatch (extractFields high low) with
  | some i => .ok i
  | none => .error (.unknownOpcode high low)

/-- Decode one instruction from the front of a byte sequence, the high byte first (R43, R60), and give the rest. -/
def decodeBytes : List Byte → Except DecodeError (Instr × List Byte)
  | high :: low :: rest =>
    match decodePair high low with
    | .ok i => .ok (i, rest)
    | .error e => .error e
  | _ => .error .truncated

/-- The first byte of an instruction word in memory (R43). -/
def highByte (w : Word) : Byte := w.extractLsb' 8 8

/-- The second byte of an instruction word in memory (R43). -/
def lowByte (w : Word) : Byte := w.extractLsb' 0 8

/-- The bytes of an instruction word as memory holds them, most significant first (R43). -/
def wordBytes (w : Word) : List Byte := [highByte w, lowByte w]

/-- Decode an instruction word. -/
def decodeWord (w : Word) : Except DecodeError Instr := decodePair (highByte w) (lowByte w)

/-! ## The encoder, from the encodings of R66 -/

/-- The 4-bit field of a register index or row count. -/
def nibble (x : Fin 16) : BitVec 4 := BitVec.ofFin x

/-- The instruction word of an instruction (R65, R66). -/
def encode : Instr → Word
  | .cls => 0x00E0#16
  | .ret => 0x00EE#16
  | .jp nnn => 0x1#4 ++ nnn
  | .call nnn => 0x2#4 ++ nnn
  | .seImm x nn => 0x3#4 ++ nibble x ++ nn
  | .sneImm x nn => 0x4#4 ++ nibble x ++ nn
  | .seReg x y => 0x5#4 ++ nibble x ++ nibble y ++ 0x0#4
  | .ldImm x nn => 0x6#4 ++ nibble x ++ nn
  | .addImm x nn => 0x7#4 ++ nibble x ++ nn
  | .ldReg x y => 0x8#4 ++ nibble x ++ nibble y ++ 0x0#4
  | .orReg x y => 0x8#4 ++ nibble x ++ nibble y ++ 0x1#4
  | .andReg x y => 0x8#4 ++ nibble x ++ nibble y ++ 0x2#4
  | .xorReg x y => 0x8#4 ++ nibble x ++ nibble y ++ 0x3#4
  | .addReg x y => 0x8#4 ++ nibble x ++ nibble y ++ 0x4#4
  | .subReg x y => 0x8#4 ++ nibble x ++ nibble y ++ 0x5#4
  | .shr x y => 0x8#4 ++ nibble x ++ nibble y ++ 0x6#4
  | .subnReg x y => 0x8#4 ++ nibble x ++ nibble y ++ 0x7#4
  | .shl x y => 0x8#4 ++ nibble x ++ nibble y ++ 0xE#4
  | .sneReg x y => 0x9#4 ++ nibble x ++ nibble y ++ 0x0#4
  | .ldI nnn => 0xA#4 ++ nnn
  | .jpV0 nnn => 0xB#4 ++ nnn
  | .rnd x nn => 0xC#4 ++ nibble x ++ nn
  | .drw x y n => 0xD#4 ++ nibble x ++ nibble y ++ nibble n
  | .skp x => 0xE#4 ++ nibble x ++ 0x9E#8
  | .sknp x => 0xE#4 ++ nibble x ++ 0xA1#8
  | .ldVxDT x => 0xF#4 ++ nibble x ++ 0x07#8
  | .ldVxK x => 0xF#4 ++ nibble x ++ 0x0A#8
  | .ldDT x => 0xF#4 ++ nibble x ++ 0x15#8
  | .ldST x => 0xF#4 ++ nibble x ++ 0x18#8
  | .addI x => 0xF#4 ++ nibble x ++ 0x1E#8
  | .ldF x => 0xF#4 ++ nibble x ++ 0x29#8
  | .ldB x => 0xF#4 ++ nibble x ++ 0x33#8
  | .storeRegs x => 0xF#4 ++ nibble x ++ 0x55#8
  | .loadRegs x => 0xF#4 ++ nibble x ++ 0x65#8

/-- The bytes of an instruction as memory holds them (R43). -/
def encodeBytes (i : Instr) : List Byte := wordBytes (encode i)

/-! ## The opcode table of R66 -/

/-- A row of R66: a word `w` selects it exactly when `w &&& mask = value`. -/
structure OpcodeRow where
  pattern : String
  mask : Word
  value : Word
deriving DecidableEq, Repr

/-- Rows 1 to 18 of R66. -/
def opcodeRowsLow : List OpcodeRow :=
  [⟨"00E0", 0xFFFF, 0x00E0⟩, ⟨"00EE", 0xFFFF, 0x00EE⟩, ⟨"1NNN", 0xF000, 0x1000⟩,
   ⟨"2NNN", 0xF000, 0x2000⟩, ⟨"3XNN", 0xF000, 0x3000⟩, ⟨"4XNN", 0xF000, 0x4000⟩] ++
  [⟨"5XY0", 0xF00F, 0x5000⟩, ⟨"6XNN", 0xF000, 0x6000⟩, ⟨"7XNN", 0xF000, 0x7000⟩,
   ⟨"8XY0", 0xF00F, 0x8000⟩, ⟨"8XY1", 0xF00F, 0x8001⟩, ⟨"8XY2", 0xF00F, 0x8002⟩] ++
  [⟨"8XY3", 0xF00F, 0x8003⟩, ⟨"8XY4", 0xF00F, 0x8004⟩, ⟨"8XY5", 0xF00F, 0x8005⟩,
   ⟨"8XY6", 0xF00F, 0x8006⟩, ⟨"8XY7", 0xF00F, 0x8007⟩, ⟨"8XYE", 0xF00F, 0x800E⟩]

/-- Rows 19 to 34 of R66. -/
def opcodeRowsHigh : List OpcodeRow :=
  [⟨"9XY0", 0xF00F, 0x9000⟩, ⟨"ANNN", 0xF000, 0xA000⟩, ⟨"BNNN", 0xF000, 0xB000⟩,
   ⟨"CXNN", 0xF000, 0xC000⟩, ⟨"DXYN", 0xF000, 0xD000⟩, ⟨"EX9E", 0xF0FF, 0xE09E⟩] ++
  [⟨"EXA1", 0xF0FF, 0xE0A1⟩, ⟨"FX07", 0xF0FF, 0xF007⟩, ⟨"FX0A", 0xF0FF, 0xF00A⟩,
   ⟨"FX15", 0xF0FF, 0xF015⟩, ⟨"FX18", 0xF0FF, 0xF018⟩, ⟨"FX1E", 0xF0FF, 0xF01E⟩] ++
  [⟨"FX29", 0xF0FF, 0xF029⟩, ⟨"FX33", 0xF0FF, 0xF033⟩, ⟨"FX55", 0xF0FF, 0xF055⟩,
   ⟨"FX65", 0xF0FF, 0xF065⟩]

/-- The opcode table of R66, in its order. -/
def opcodeTable : List OpcodeRow := opcodeRowsLow ++ opcodeRowsHigh

/-- The number of an instruction's row in R66 (its column `#`). -/
def Instr.rowNumber : Instr → Nat
  | .cls => 1
  | .ret => 2
  | .jp _ => 3
  | .call _ => 4
  | .seImm _ _ => 5
  | .sneImm _ _ => 6
  | .seReg _ _ => 7
  | .ldImm _ _ => 8
  | .addImm _ _ => 9
  | .ldReg _ _ => 10
  | .orReg _ _ => 11
  | .andReg _ _ => 12
  | .xorReg _ _ => 13
  | .addReg _ _ => 14
  | .subReg _ _ => 15
  | .shr _ _ => 16
  | .subnReg _ _ => 17
  | .shl _ _ => 18
  | .sneReg _ _ => 19
  | .ldI _ => 20
  | .jpV0 _ => 21
  | .rnd _ _ => 22
  | .drw _ _ _ => 23
  | .skp _ => 24
  | .sknp _ => 25
  | .ldVxDT _ => 26
  | .ldVxK _ => 27
  | .ldDT _ => 28
  | .ldST _ => 29
  | .addI _ => 30
  | .ldF _ => 31
  | .ldB _ => 32
  | .storeRegs _ => 33
  | .loadRegs _ => 34

/-- Row `n` of R66 selects the word `w`. -/
def rowSelects (n : Nat) (w : Word) : Bool :=
  match opcodeTable[n - 1]? with
  | some r => w &&& r.mask == r.value
  | none => false

/-! ## The host's numbering of an instruction's bits -/

/-- The instruction the decoder reads from an instruction whose bits are `w`, numbered as spec/opcode_table.json
numbers them: one 16-bit word, bit 0 its least significant bit; bits at `nbits` and above are 0.  The word is laid
out as memory holds it, high byte first (R43), and given to `decodeBytes`. -/
def decodeTableWord (nbits w : Nat) : Option Instr :=
  match decodeBytes (wordBytes (BitVec.ofNat 16 (w % 2 ^ nbits))) with
  | .ok (i, _) => some i
  | .error _ => none

end Sys2Proof
end

