-- ==== Sys2Proof/Config.lean ====
section
/-! DEFINITION. What an implementation of the CHIP-8 CORE fixes, and the free values: the answers of the
collaborators and the outcomes the spec leaves unspecified.  A free value is an `opaque` constant, so that
nothing in Lean can say what it is and every claim holds whatever it is. -/

namespace Sys2Proof

/-- MEM_SIZE, the bytes of memory (R5, R40). -/
def Config.memSize : Nat := 4096

/-- STACK_DEPTH, the capacity of the call stack (R5, R21). -/
def Config.stackDepth : Nat := 16

/-- PC_RESET, the program counter after reset (R35, D1). -/
def Config.pcReset : Word := 0x200

/-- PROGRAM_BASE, where the ROM image is loaded (R5, R47). -/
def Config.programBase : Nat := 0x200

/-- FONT_BASE, where the font is loaded (R5, R47). -/
def Config.fontBase : Nat := 0

/-- GLYPH_BYTES, the bytes of one font glyph (R5, R47). -/
def Config.glyphBytes : Nat := 5

/-- FONT_LEN, the bytes of the font: sixteen glyphs (R5, R47, R192). -/
abbrev Config.fontLen : Nat := 80

/-- TICK_HZ, the decay rate of both timers in ticks per second of real time (R5, R27). -/
def Config.tickHz : Time := 60

/-- VF_ALIAS_MODE (R6, R113, D3): how 8XY5, 8XY6, 8XY7 and 8XYE read their operands when X or Y is 0xF. -/
inductive VfAliasMode where
  /-- The result is computed after the flag has been written to VF. -/
  | sequential
  /-- All register operands are read before VF is written. -/
  | latched
deriving DecidableEq, Repr

/-- The conventional font table of R50, sixteen glyphs of five bytes, digits 0 to 7.
PRESUMED (the spec marks the bytes as general knowledge): a launch may load any 80 bytes (K1), and no
definition of the core reads this table. -/
def Config.conventionalFontLow : List Byte :=
  [0xF0, 0x90, 0x90, 0x90, 0xF0] ++ [0x20, 0x60, 0x20, 0x20, 0x70] ++
  [0xF0, 0x10, 0xF0, 0x80, 0xF0] ++ [0xF0, 0x10, 0xF0, 0x10, 0xF0] ++
  [0x90, 0x90, 0xF0, 0x10, 0x10] ++ [0xF0, 0x80, 0xF0, 0x10, 0xF0] ++
  [0xF0, 0x80, 0xF0, 0x90, 0xF0] ++ [0xF0, 0x10, 0x20, 0x40, 0x40]

/-- The conventional font table of R50, digits 8 to F. -/
def Config.conventionalFontHigh : List Byte :=
  [0xF0, 0x90, 0xF0, 0x90, 0xF0] ++ [0xF0, 0x90, 0xF0, 0x10, 0xF0] ++
  [0xF0, 0x90, 0xF0, 0x90, 0x90] ++ [0xE0, 0x90, 0xE0, 0x90, 0xE0] ++
  [0xF0, 0x80, 0x80, 0x80, 0xF0] ++ [0xE0, 0x90, 0x90, 0x90, 0xE0] ++
  [0xF0, 0x80, 0xF0, 0x80, 0xF0] ++ [0xF0, 0x80, 0xF0, 0x80, 0x80]

/-- The conventional font (R50, K1): what a host may pass to `launch` as FONT. -/
def Config.conventionalFont : Vector Byte Config.fontLen :=
  ⟨(Config.conventionalFontLow ++ Config.conventionalFontHigh).toArray, rfl⟩

/-! ## Free values: the collaborators' answers

Each is applied to the number of a step (`State.draws`). -/

/-- The keypad's answer in step `n` for a key code 0 to 15 (R142, R176, D15): external input, free. -/
opaque Config.keyDown : Nat → Fin 16 → Bool

/-- The keypad's answer in step `n` for a key code above 15 (R142, D4): an unconstrained Boolean draw.  No
instruction asks for more than one such code in a step, so one Boolean a step loses no behaviour. -/
opaque Config.highKeyDown : Nat → Bool

/-- The byte of the random source in step `n` (R111, R180, D12): an unconstrained draw. -/
opaque Config.randomByte : Nat → Byte

/-- The readings of the real-time clock (R179, D6), numbered `2 * n` for the audio check of step `n` and
`2 * n + 1` for its execute phase.  Free; the model makes them monotone by taking the later of a reading and the
sample before it. -/
opaque Config.clockReading : Nat → Time

/-! ## Free values: what a memory fault leaves behind (R162, K8) -/

/-- One item of state that an instruction ending in a data MemoryBoundsError would have written. -/
inductive WriteItem where
  /-- The program counter. -/
  | pc
  /-- A general register that FX65 loads. -/
  | reg (x : Reg)
  /-- A memory byte that FX33 or FX55 stores. -/
  | mem (addr : Nat)
  /-- A pixel under the sprite of DXYN. -/
  | pixel (x : Fin 64) (y : Fin 32)
  /-- VF as DXYN's collision flag. -/
  | flag
  /-- The value of DXYN's collision flag. -/
  | collision
deriving DecidableEq, Repr

/-- Whether, when step `n` ends in a data MemoryBoundsError, an item holds its new value (true) or its old one
(false): R162 leaves it unspecified item by item. -/
opaque Config.landed : Nat → WriteItem → Bool

end Sys2Proof
end

