-- ==== Sys2Proof/Machine/State.lean ====
section
/-! DEFINITION. The state of the CHIP-8 CORE as plain data (spec 10_state.md), its faults (60_exceptions.md), and
its value after reset (R35, R190).  After the spec's own state stand three fields of the MODEL's: the inputs of the
step that comes next, the number of draws made, and the trace of the latest step's external events. -/

namespace Sys2Proof.Machine

/-- The contents of the 4096-byte memory (R40): the bytes that differ from what an unlisted address reads as, by
strictly rising address. -/
abbrev Memory := List Host.Cell

/-- What an unlisted address reads as: all 4096 bytes are 0 after reset (R35, R190). -/
def Memory.unlisted : Byte := 0

/-- The canonical form of memory: addresses strictly rising, all below 4096, no entry equal to the unlisted value. -/
abbrev Memory.wf (m : Memory) : Prop :=
  m.Pairwise (fun c d => c.1 < d.1) ∧ ∀ c ∈ m, c.1 < Config.memSize ∧ c.2 ≠ Memory.unlisted

/-- A timer: the value last set and the instant it was set (R25). -/
structure Timer where
  value : Byte
  stamp : Time
deriving DecidableEq, Repr

/-- The framebuffer: 32 rows of 64 Boolean pixels, row-major, row 0 topmost, column 0 leftmost (R29, R30). -/
abbrev Framebuffer := Vector (Vector Bool 64) 32

/-- Every pixel false (R35, R132). -/
def Framebuffer.blank : Framebuffer := Vector.replicate 32 (Vector.replicate 64 false)

/-- The five fatal faults with their records `(kind, pc, word, addr)` (R160, R163 to R168): the content of the
fault latch.  Every one of them is taken: the step (or load) that raises it ends in a NEXT state whose latch holds
it, and later steps do nothing (R161).  No step of this model answers `Outcome.fault`. -/
inductive Fault where
  /-- A bus access above 4095 (R163): raised by any step's fetch, and by DXYN, FX33, FX55 and FX65.  `word` is
  absent for a fetch fault (R168).  Safe: the record is the spec's. -/
  | memoryBoundsError (pc : Word) (word : Option Word) (addr : Word)
  /-- A call at depth 16 (R164): raised by 2NNN only.  Safe. -/
  | stackOverflow (pc : Word) (word : Word)
  /-- A return with no call outstanding (R165): raised by 00EE only.  Safe. -/
  | stackUnderflow (pc : Word) (word : Word)
  /-- No dispatch match (R166): raised by any step that fetches an illegal word.  Safe. -/
  | unknownOpcode (pc : Word) (high low : Byte)
  /-- An image that does not fit (R167): raised by `State.load` before the first step, never by a step.  Safe. -/
  | loadError (offset length : Nat)
deriving DecidableEq, Repr

/-- Why an instruction has no meaning in this model. -/
inductive Refusal where
  /-- An instruction not modelled yet, rejected by name in `exec`'s arm.  Safe.  No arm of this model uses it. -/
  | notModelled (mnemonic : String)
deriving DecidableEq, Repr

/-- The externally visible events of a step, in the order of R87.  The audio check's own clock sample is not in
R87's list and is not recorded. -/
inductive Event where
  /-- A byte read on the bus: the two of a fetch, and data reads (R45). -/
  | memRead (addr : Nat)
  /-- A byte written on the bus (R45). -/
  | memWrite (addr : Nat) (value : Byte)
  /-- `audio_signal` (R177). -/
  | audioSignal
  /-- A query of the keypad (R176). -/
  | keyPoll (code : Byte)
  /-- A draw from the random source (R180). -/
  | randomDraw
  /-- The clock sample of a timer instruction (R88, R179). -/
  | clockSample
  /-- `render(fb)` with a snapshot of the framebuffer (R178). -/
  | render (fb : Framebuffer)
deriving DecidableEq, Repr

/-- What the collaborators answer in one step (R36, R142, R176, R179, R180): inputs of the step, not state of the
core.  All free; a claim holds for every value. -/
structure Inputs where
  /-- The keypad's answers for the codes 0 to 15. -/
  keys : Vector Bool 16
  /-- The keypad's answer for a code above 15 (D4). -/
  highKey : Bool
  /-- The random byte. -/
  random : Byte
  /-- `t_a`, the clock sample of the audio check (R82, R88). -/
  timeAudio : Time
  /-- `t_x`, the clock sample of FX07, FX15 and FX18 (R84, R88). -/
  timeExec : Time
deriving DecidableEq, Repr

/-- The free inputs of step `n`, with clock samples not earlier than `since` nor than one another (R88, R179). -/
def Inputs.draw (n : Nat) (since : Time) : Inputs :=
  let timeAudio := Time.later since (Config.clockReading (2 * n))
  { keys := Vector.ofFn (Config.keyDown n)
    highKey := Config.highKeyDown n
    random := Config.randomByte n
    timeAudio := timeAudio
    timeExec := Time.later timeAudio (Config.clockReading (2 * n + 1)) }

/-- The state of the CHIP-8 CORE (R2, R10 to R34). -/
structure State where
  /-- V0 to VF (R10). -/
  v : Vector Byte 16
  /-- The index register I (R16). -/
  i : Word
  /-- The program counter PC (R18). -/
  pc : Word
  /-- The live entries of the call stack, the most recent first; SP is its length (R21, R22). -/
  stack : List Word
  /-- The delay timer DT (R25). -/
  dt : Timer
  /-- The sound timer ST (R25). -/
  st : Timer
  /-- The framebuffer (R29). -/
  fb : Framebuffer
  /-- The memory (R40). -/
  mem : Memory
  /-- The fault latch FAULT (R31). -/
  fault : Option Fault
  /-- The model's own: what the collaborators answer in the step that comes next. -/
  inputs : Inputs
  /-- The model's own: the number of the step that comes next, which the free values are applied to. -/
  draws : Nat
  /-- The model's own: the external events of the latest step that ran, oldest first (R87).  A step request that a
  halted core ignores keeps them (log 14). -/
  events : List Event
deriving DecidableEq, Repr

/-- The state after reset (R35, R190).  The timer stamps are unspecified by R35 and 0 here (log 7); the model's own
inputs are drawn like every step's. -/
def State.reset : State :=
  { v := Vector.replicate 16 0
    i := 0
    pc := Config.pcReset
    stack := []
    dt := { value := 0, stamp := 0 }
    st := { value := 0, stamp := 0 }
    fb := Framebuffer.blank
    mem := []
    fault := none
    inputs := Inputs.draw 0 0
    draws := 0
    events := [] }

end Sys2Proof.Machine
end

