-- ==== Sys2Proof/Machine/Ops.lean ====
section
/-! DEFINITION. The named operations over the state: registers, program counter, call stack, memory and its bus,
timers, events, raising a fault, and what surrounds an instruction in a step (fetch, audio check, the next inputs).
Spec 10_state.md, 20_memory.md, 40_step_cycle.md, 60_exceptions.md. -/

namespace Sys2Proof.Machine

/-! ## Registers -/

/-- Register 15, the flag register VF (R11). -/
def regF : Reg := 15

/-- `V[i]` (R8, R10). -/
def State.readReg (s : State) (x : Reg) : Byte := s.v.get x

/-- `V[i] <- v` (R12). -/
def State.writeReg (s : State) (x : Reg) (b : Byte) : State := { s with v := s.v.set x b }

/-- `I <- v` (R16). -/
def State.writeI (s : State) (w : Word) : State := { s with i := w }

/-- `pc <- target` (R18). -/
def State.setPc (s : State) (target : Word) : State := { s with pc := target }

/-- `pc <- pc0 + 2`, the default (R19, R84). -/
def State.fallThrough (s : State) : State := s.setPc (s.pc + 2)

/-- The end of a skip instruction: `pc0 + 4` when the condition is true, `pc0 + 2` when it is false (R98). -/
def State.skipIf (s : State) (cond : Bool) : State := s.setPc (if cond then s.pc + 4 else s.pc + 2)

/-! ## Faults

R160: the rest of the step is abandoned, the latch takes the record, the core is halted.  Control goes nowhere in
the machine, and there is no return from a fault (R171): the only way out is `State.hostReset`, below. -/

/-- `raise F(info)`: FAULT <- (F, info) (R160). -/
def State.raise (s : State) (f : Fault) : State := { s with fault := some f }

/-! ## The call stack -/

/-- `push(a)`, failing when the stack is full; the check precedes the write (R23). -/
def State.push (s : State) (a : Word) : Option State :=
  if s.stack.length ≥ Config.stackDepth then none else some { s with stack := a :: s.stack }

/-- `pop()`, failing when the stack is empty (R24). -/
def State.pop (s : State) : Option (Word × State) :=
  match s.stack with
  | [] => none
  | a :: rest => some (a, { s with stack := rest })

/-! ## Memory -/

/-- The byte at an address (R41). -/
def Memory.read : Memory → Nat → Byte
  | [], _ => Memory.unlisted
  | (a, b) :: rest, k => if a = k then b else Memory.read rest k

/-- Memory with the byte at `k` set to `b` (R42), in canonical form. -/
def Memory.write : Memory → Nat → Byte → Memory
  | [], k, b => if b = Memory.unlisted then [] else [(k, b)]
  | (a, c) :: rest, k, b =>
    if k < a then
      if b = Memory.unlisted then (a, c) :: rest else (k, b) :: (a, c) :: rest
    else if k = a then
      if b = Memory.unlisted then rest else (a, b) :: rest
    else (a, c) :: Memory.write rest k b

/-- `MemRead(addr, 1)` on the bus: the failing address when it is above 4095 (R41). -/
def busRead (m : Memory) (a : Nat) : Except Nat Byte :=
  if a < Config.memSize then .ok (m.read a) else .error a

/-- `MemWrite(addr, 1, v)` on the bus (R42). -/
def busWrite (m : Memory) (a : Nat) (b : Byte) : Except Nat Memory :=
  if a < Config.memSize then .ok (m.write a b) else .error a

/-- `n` byte reads at ascending addresses, each checked when it is made (R54); the first failing address. -/
def busReadN (m : Memory) : Nat → Nat → Except Nat (List Byte)
  | _, 0 => .ok []
  | a, n + 1 =>
    match busRead m a with
    | .error e => .error e
    | .ok b =>
      match busReadN m (a + 1) n with
      | .error e => .error e
      | .ok bs => .ok (b :: bs)

/-- Byte writes at ascending addresses, each checked when it is made (R54); the first failing address. -/
def busWriteN : Memory → Nat → List Byte → Except Nat Memory
  | m, _, [] => .ok m
  | m, a, b :: bs =>
    match busWrite m a b with
    | .error e => .error e
    | .ok m' => busWriteN m' (a + 1) bs

/-- Memory with a run of bytes written from `a` on, unchecked: for `load` after its own check (R52). -/
def Memory.writeN : Memory → Nat → List Byte → Memory
  | m, _, [] => m
  | m, a, b :: bs => Memory.writeN (m.write a b) (a + 1) bs

/-- The bytes of a faulting run of writes, each in bounds landed or not (R162). -/
def Memory.writeSome (keep : Nat → Bool) : Memory → Nat → List Byte → Memory
  | m, _, [] => m
  | m, a, b :: bs =>
    Memory.writeSome keep (if a < Config.memSize ∧ keep a then m.write a b else m) (a + 1) bs

/-! ## Timers -/

/-- `floor((t - stamp) * 60)`, the whole ticks elapsed; 0 for an instant before the stamp, which no run reaches
(R27, D5). -/
def elapsedTicks (stamp t : Time) : Nat := ((t - stamp) * Config.tickHz).floor.toNat

/-- `remaining(T, t)` (R27). -/
def Timer.remaining (T : Timer) (t : Time) : Byte := BitVec.ofNat 8 (T.value.toNat - elapsedTicks T.stamp t)

/-- `set_timer(DT, v, t)`: both fields at once (R26). -/
def State.setDT (s : State) (b : Byte) (t : Time) : State := { s with dt := { value := b, stamp := t } }

/-- `set_timer(ST, v, t)`: both fields at once (R26). -/
def State.setST (s : State) (b : Byte) (t : Time) : State := { s with st := { value := b, stamp := t } }

/-! ## Events -/

/-- Record external events, in order (R87). -/
def State.emit (s : State) (es : List Event) : State := { s with events := s.events ++ es }

/-- The read events of `n` bytes from `a` on (R45). -/
def readEvents (a n : Nat) : List Event := (List.range n).map fun k => .memRead (a + k)

/-- The write events of a run of bytes from `a` on (R45). -/
def writeEvents : Nat → List Byte → List Event
  | _, [] => []
  | a, b :: bs => .memWrite a b :: writeEvents (a + 1) bs

/-! ## Data memory faults

R162 and R163: the record names the first failing address; what the instruction would have written holds, item by
item, its old or its new value, freely (`Config.landed`); everything else is unchanged. -/

/-- Whether an item of the faulting instruction holds its new value (R162). -/
def State.landed (s : State) (w : WriteItem) : Bool := Config.landed s.draws w

/-- The program counter after a data fault: old or `pc0 + 2`, freely (R162). -/
def State.faultPc (s : State) : Word := if s.landed .pc then s.pc + 2 else s.pc

/-- Take a data MemoryBoundsError at `addr` in the instruction `instr`, which started at the present PC (R163,
R168); the rest of its effects has been decided by the caller. -/
def State.dataFault (s : State) (instr : Instr) (addr : Nat) : State :=
  (s.setPc s.faultPc).raise (.memoryBoundsError s.pc (some (encode instr)) (BitVec.ofNat 16 addr))

/-! ## Around an instruction -/

/-- Fetch the two bytes at PC and PC + 1, or give the address that failed (R80). -/
def State.fetch (s : State) : Except Nat (Byte × Byte) :=
  match busRead s.mem s.pc.toNat with
  | .error e => .error e
  | .ok high =>
    match busRead s.mem (s.pc.toNat + 1) with
    | .error e => .error e
    | .ok low => .ok (high, low)

/-- The audio level check: one `audio_signal` if and only if the sound timer's remaining value is above 0 (R82,
R153). -/
def State.audioEvents (s : State) : List Event :=
  if s.st.remaining s.inputs.timeAudio > 0 then [.audioSignal] else []

/-- The state in which a fetched instruction executes: the trace of this step holds the two fetch reads and the
audio check's signal, and nothing else has changed (R82, R87). -/
def State.afterFetch (s : State) : State :=
  { s with events := [.memRead s.pc.toNat, .memRead (s.pc.toNat + 1)] ++ s.audioEvents }

/-- A fetch that fails: MemoryBoundsError with no word, no state changed and no event (R80, R163). -/
def State.fetchFault (s : State) (addr : Nat) : State :=
  { s with events := [] }.raise (.memoryBoundsError s.pc none (BitVec.ofNat 16 addr))

/-- A word that names no instruction: UnknownOpcode with the two bytes (R83, R166). -/
def State.unknownOpcode (s : State) (high low : Byte) : State :=
  s.afterFetch.raise (.unknownOpcode s.pc high low)

/-- The end of a step: the inputs of the next one are drawn, with clock samples not before this step's (R88). -/
def State.nextInputs (s : State) : State :=
  { s with inputs := Inputs.draw (s.draws + 1) s.inputs.timeExec, draws := s.draws + 1 }

/-- Reset by the host (R181, R190): every piece of the spec's state at its reset value, a latched fault among them.
The clock goes on and new inputs are drawn for the step that comes next (log 9). -/
def State.hostReset (s : State) : State := { State.reset with inputs := s.inputs, draws := s.draws }.nextInputs

end Sys2Proof.Machine
end

