-- ==== Sys2Proof/Machine/Flags.lean ====
section
/-! DEFINITION. The flag computations of the six instructions that write VF (spec 10_state.md R15), and the order
of the flag write and the result write (42_alu.md R113). -/

namespace Sys2Proof.Machine

/-- A flag as VF holds it: 0 or 1 (R15). -/
def flagByte (f : Bool) : Byte := if f then 1 else 0

/-- `V[15] <- (1 if f else 0)`. -/
def State.setFlag (s : State) (f : Bool) : State := s.writeReg regF (flagByte f)

/-- The carry of an 8-bit addition: the sum exceeds 255 (R106, R112). -/
def carryOut (a b : Byte) : Bool := a.toNat + b.toNat > 255

/-- No borrow in `a - b`: `a >= b` (R107, R109, R112). -/
def noBorrow (a b : Byte) : Bool := a.toNat ≥ b.toNat

/-- The bit shifted out on the right: bit 0 before the shift (R108). -/
def bitOutRight (a : Byte) : Bool := a.getLsbD 0

/-- The bit shifted out on the left: bit 7 before the shift (R110). -/
def bitOutLeft (a : Byte) : Bool := a.getLsbD 7

/-- VF_ALIAS_MODE of this model: the spec's default (R113, D3). -/
def vfAliasMode : VfAliasMode := .sequential

/-- Write the flag, then the result computed by `result` (R113).  In the sequential reading `result` sees the
register file with the flag in it, so that an operand named VF is the flag; in the latched reading it sees the
registers before. -/
def State.writeFlagThen (s : State) (flag : Bool) (x : Reg) (result : State → Byte) : State :=
  match vfAliasMode with
  | .sequential => let s' := s.setFlag flag; s'.writeReg x (result s')
  | .latched => (s.setFlag flag).writeReg x (result s)

end Sys2Proof.Machine
end

