-- ==== Sys2Proof/Machine/Alu.lean ====
section
/-! DEFINITION. Register and arithmetic instructions (spec 42_alu.md).  All end with `pc <- pc0 + 2`. -/

namespace Sys2Proof.Machine

/-- 6XNN: `V[X] <- NN` (R100). -/
def execLdImm (x : Reg) (nn : Byte) (s : State) : Host.Outcome State Fault Refusal :=
  .next (s.writeReg x nn).fallThrough

/-- 7XNN: `V[X] <- (V[X] + NN) mod 256`, no flag (R101). -/
def execAddImm (x : Reg) (nn : Byte) (s : State) : Host.Outcome State Fault Refusal :=
  .next (s.writeReg x (s.readReg x + nn)).fallThrough

/-- 8XY0: `V[X] <- V[Y]` (R102). -/
def execLdReg (x y : Reg) (s : State) : Host.Outcome State Fault Refusal :=
  .next (s.writeReg x (s.readReg y)).fallThrough

/-- 8XY1: `V[X] <- V[X] | V[Y]`, no flag (R103). -/
def execOrReg (x y : Reg) (s : State) : Host.Outcome State Fault Refusal :=
  .next (s.writeReg x (s.readReg x ||| s.readReg y)).fallThrough

/-- 8XY2: `V[X] <- V[X] & V[Y]`, no flag (R104). -/
def execAndReg (x y : Reg) (s : State) : Host.Outcome State Fault Refusal :=
  .next (s.writeReg x (s.readReg x &&& s.readReg y)).fallThrough

/-- 8XY3: `V[X] <- V[X] ^ V[Y]`, no flag (R105). -/
def execXorReg (x y : Reg) (s : State) : Host.Outcome State Fault Refusal :=
  .next (s.writeReg x (s.readReg x ^^^ s.readReg y)).fallThrough

/-- 8XY4: both operands are read first; then VF takes the carry and Vx the sum (R106). -/
def execAddReg (x y : Reg) (s : State) : Host.Outcome State Fault Refusal :=
  let a := s.readReg x
  let b := s.readReg y
  .next ((s.setFlag (carryOut a b)).writeReg x (a + b)).fallThrough

/-- 8XY5: VF takes the no-borrow flag of `Vx - Vy`, then Vx the difference (R107, R113). -/
def execSubReg (x y : Reg) (s : State) : Host.Outcome State Fault Refusal :=
  .next (s.writeFlagThen (noBorrow (s.readReg x) (s.readReg y)) x
    (fun t => t.readReg x - t.readReg y)).fallThrough

/-- 8XY6: VF takes bit 0 of Vx, then Vx is shifted right one bit; Vy is not read (R108, R113). -/
def execShr (x : Reg) (s : State) : Host.Outcome State Fault Refusal :=
  .next (s.writeFlagThen (bitOutRight (s.readReg x)) x (fun t => t.readReg x >>> 1)).fallThrough

/-- 8XY7: VF takes the no-borrow flag of `Vy - Vx`, then Vx the difference (R109, R113). -/
def execSubnReg (x y : Reg) (s : State) : Host.Outcome State Fault Refusal :=
  .next (s.writeFlagThen (noBorrow (s.readReg y) (s.readReg x)) x
    (fun t => t.readReg y - t.readReg x)).fallThrough

/-- 8XYE: VF takes bit 7 of Vx, then Vx is shifted left one bit; Vy is not read (R110, R113). -/
def execShl (x : Reg) (s : State) : Host.Outcome State Fault Refusal :=
  .next (s.writeFlagThen (bitOutLeft (s.readReg x)) x (fun t => t.readReg x <<< 1)).fallThrough

/-- CXNN: `V[X] <- rand_byte() & NN`, one draw (R111, R180). -/
def execRnd (x : Reg) (nn : Byte) (s : State) : Host.Outcome State Fault Refusal :=
  .next ((s.writeReg x (s.inputs.random &&& nn)).emit [.randomDraw]).fallThrough

end Sys2Proof.Machine
end

