-- ==== Sys2Proof/Machine/Control.lean ====
section
/-! DEFINITION. Control transfer: return, jumps, call, skips (spec 41_control_flow.md). -/

namespace Sys2Proof.Machine

/-- 00EE: `pc <- pop()`, StackUnderflow when the stack is empty (R90, R165). -/
def execRet (s : State) : Host.Outcome State Fault Refusal :=
  .next (match s.pop with
    | none => s.raise (.stackUnderflow s.pc (encode .ret))
    | some (a, s') => s'.setPc a)

/-- 1NNN: `pc <- NNN` (R91). -/
def execJp (nnn : Addr12) (s : State) : Host.Outcome State Fault Refusal :=
  .next (s.setPc (zext16 nnn))

/-- 2NNN: `push(pc0 + 2); pc <- NNN`, StackOverflow at depth 16 (R92, R164). -/
def execCall (nnn : Addr12) (s : State) : Host.Outcome State Fault Refusal :=
  .next (match s.push (s.pc + 2) with
    | none => s.raise (.stackOverflow s.pc (encode (.call nnn)))
    | some s' => s'.setPc (zext16 nnn))

/-- BNNN: `pc <- NNN + V0`, not reduced (R93). -/
def execJpV0 (nnn : Addr12) (s : State) : Host.Outcome State Fault Refusal :=
  .next (s.setPc (zext16 nnn + zext16 (s.readReg 0)))

/-- 3XNN: skip if Vx = NN (R94). -/
def execSeImm (x : Reg) (nn : Byte) (s : State) : Host.Outcome State Fault Refusal :=
  .next (s.skipIf (s.readReg x == nn))

/-- 4XNN: skip if Vx ≠ NN (R95). -/
def execSneImm (x : Reg) (nn : Byte) (s : State) : Host.Outcome State Fault Refusal :=
  .next (s.skipIf (s.readReg x != nn))

/-- 5XY0: skip if Vx = Vy (R96). -/
def execSeReg (x y : Reg) (s : State) : Host.Outcome State Fault Refusal :=
  .next (s.skipIf (s.readReg x == s.readReg y))

/-- 9XY0: skip if Vx ≠ Vy (R97). -/
def execSneReg (x y : Reg) (s : State) : Host.Outcome State Fault Refusal :=
  .next (s.skipIf (s.readReg x != s.readReg y))

end Sys2Proof.Machine
end

