-- ==== Sys2Proof/Machine/Operands.lean ====
section
/-! DEFINITION. Operand forms: the effective address of a data access, the register runs of FX55 and FX65, the
decimal digits of FX33, and the keypad's answers.  Spec 43_index_memory.md, 45_keypad.md. -/

namespace Sys2Proof.Machine

/-- The base of every data access: I as a plain integer; the effective address is `I + k`, reduced by nothing
(R54, R126). -/
def State.dataBase (s : State) : Nat := s.i.toNat

/-- The registers V0 to Vx inclusive, ascending (R124). -/
def State.regsUpTo (s : State) (x : Reg) : List Byte := s.v.toList.take (x.val + 1)

/-- The registers with `bytes` loaded from V0 on; the registers above are unchanged (R125). -/
def loadedRegs (v : Vector Byte 16) (bytes : List Byte) : Vector Byte 16 :=
  Vector.ofFn fun k => bytes.getD k.val (v.get k)

/-- The decimal digits of a byte: hundreds, tens, units (R123). -/
def bcdDigits (b : Byte) : List Byte := [b / 100, (b / 10) % 10, b % 10]

/-- `Vx * 5`, where the glyph of digit Vx stands; the whole byte is multiplied (R122). -/
def glyphAddress (b : Byte) : Word := zext16 b * BitVec.ofNat 16 Config.glyphBytes

/-- `key_pressed(k)`: the keypad's answer in this step (R142, R176). -/
def Inputs.keyPressed (inp : Inputs) (code : Byte) : Bool :=
  if h : code.toNat < 16 then inp.keys[code.toNat] else inp.highKey

/-- The lowest pressed key among 0 to 15, from `k` on (R143). -/
def Inputs.lowestKeyFrom (inp : Inputs) : (fuel k : Nat) → Option Nat
  | 0, _ => none
  | fuel + 1, k => if inp.keyPressed (BitVec.ofNat 8 k) then some k else inp.lowestKeyFrom fuel (k + 1)

/-- The lowest pressed key, if any key is pressed (R143). -/
def Inputs.lowestKey (inp : Inputs) : Option Nat := inp.lowestKeyFrom 16 0

/-- The keypad queries of FX0A: codes 0, 1, ... up to `n - 1` (R176). -/
def pollEvents (n : Nat) : List Event := (List.range n).map fun k => .keyPoll (BitVec.ofNat 8 k)

end Sys2Proof.Machine
end

