-- ==== Sys2Proof/Machine/Display.lean ====
section
/-! DEFINITION. The framebuffer operations and the display instructions (spec 44_display.md). -/

namespace Sys2Proof.Machine

/-- `fb[y][x]` (R29). -/
def Framebuffer.pixel (fb : Framebuffer) (x : Fin 64) (y : Fin 32) : Bool := (fb.get y).get x

/-- `fb[y][x] <- b`. -/
def Framebuffer.setPixel (fb : Framebuffer) (x : Fin 64) (y : Fin 32) (b : Bool) : Framebuffer :=
  fb.set y ((fb.get y).set x b)

/-- Element `k` of the row-major view: pixel `(x, y)` is element `y * 64 + x` (R30). -/
def Framebuffer.linear (fb : Framebuffer) (k : Fin 2048) : Bool :=
  fb.pixel (Fin.ofNat 64 k.val) (Fin.ofNat 32 (k.val / 64))

/-- A blit under way: the grid and whether any pixel has gone from true to false (R134). -/
structure Blit where
  fb : Framebuffer
  collision : Bool
deriving DecidableEq, Repr

/-- XOR one sprite bit into one pixel (R134, the body of the two loops). -/
def drawPixel (x : Fin 64) (y : Fin 32) (bit : Bool) (b : Blit) : Blit :=
  let old := b.fb.pixel x y
  let new := old ^^ bit
  { fb := b.fb.setPixel x y new, collision := b.collision || (old && !new) }

/-- The eight columns of one sprite row, bit 7 leftmost, wrapping modulo 64; `c` counts the columns left (R134). -/
def drawColumns (ox : Nat) (y : Fin 32) (row : Byte) : (c : Nat) → Blit → Blit
  | 0, b => b
  | c + 1, b =>
    drawColumns ox y row c (drawPixel (Fin.ofNat 64 (ox + (7 - c))) y (row.getLsbD c) b)

/-- The rows of a sprite from row `oy` down, wrapping modulo 32 (R134). -/
def drawRows (ox : Nat) : (oy : Nat) → List Byte → Blit → Blit
  | _, [], b => b
  | oy, row :: rows, b => drawRows ox (oy + 1) rows (drawColumns ox (Fin.ofNat 32 oy) row 8 b)

/-- `drawSprite(ox, oy, rows)` (R134). -/
def drawSprite (ox oy : Byte) (rows : List Byte) (fb : Framebuffer) : Blit :=
  drawRows ox.toNat oy.toNat rows { fb := fb, collision := false }

/-- The sprite column that falls on screen column `x` (below 8 where the sprite covers it). -/
def spriteColumn (ox : Byte) (x : Fin 64) : Nat := (x.val + 256 - ox.toNat) % 64

/-- The sprite row that falls on screen row `y` (below N where the sprite covers it). -/
def spriteRow (oy : Byte) (y : Fin 32) : Nat := (y.val + 256 - oy.toNat) % 32

/-- The framebuffer after a DXYN that faults (R162): a pixel under the sprite holds its old value or the one the
blit would have given it, freely; where the sprite row could not be read there is no such value and the pixel is
free (log 11). -/
def State.faultFramebuffer (s : State) (ox oy : Byte) (n : RowCount) : Framebuffer :=
  Vector.ofFn fun y => Vector.ofFn fun x =>
    let c := spriteColumn ox x
    let r := spriteRow oy y
    let addr := s.dataBase + r
    s.fb.pixel x y ^^
      (c < 8 && r < n.val && s.landed (.pixel x y) &&
        (if addr < Config.memSize then (s.mem.read addr).getLsbD (7 - c) else true))

/-- VF after a DXYN that faults: its old value or a collision flag, freely (R131, R162). -/
def State.faultFlag (s : State) : Byte :=
  if s.landed .flag then flagByte (s.landed .collision) else s.readReg regF

/-- 00E0: every pixel false; no render event (R130, R132). -/
def execCls (s : State) : Host.Outcome State Fault Refusal :=
  .next { s with fb := Framebuffer.blank }.fallThrough

/-- DXYN: read N rows from I on, blit them at (Vx, Vy), VF takes the collision flag, one render event (R131,
R133, R136). -/
def execDrw (x y : Reg) (n : RowCount) (s : State) : Host.Outcome State Fault Refusal :=
  let ox := s.readReg x
  let oy := s.readReg y
  .next (match busReadN s.mem s.dataBase n.val with
    | .ok rows =>
      let b := drawSprite ox oy rows s.fb
      (({ s with fb := b.fb }.setFlag b.collision).emit
        (readEvents s.dataBase n.val ++ [Event.render b.fb])).fallThrough
    | .error addr =>
      (({ s with fb := s.faultFramebuffer ox oy n }.writeReg regF s.faultFlag).emit
        (readEvents s.dataBase (addr - s.dataBase))).dataFault (.drw x y n) addr)

end Sys2Proof.Machine
end

