-- ==== Sys2Proof/Machine/Index.lean ====
section
/-! DEFINITION. Index register and memory instructions (spec 43_index_memory.md).  All end with `pc <- pc0 + 2`
unless they fault; I is never modified by a data access (R126). -/

namespace Sys2Proof.Machine

/-- ANNN: `I <- NNN` (R120). -/
def execLdI (nnn : Addr12) (s : State) : Host.Outcome State Fault Refusal :=
  .next (s.writeI (zext16 nnn)).fallThrough

/-- FX1E: `I <- (I + V[X]) mod 65536`, no flag (R121). -/
def execAddI (x : Reg) (s : State) : Host.Outcome State Fault Refusal :=
  .next (s.writeI (s.i + zext16 (s.readReg x))).fallThrough

/-- FX29: `I <- V[X] * 5` (R122). -/
def execLdF (x : Reg) (s : State) : Host.Outcome State Fault Refusal :=
  .next (s.writeI (glyphAddress (s.readReg x))).fallThrough

/-- Store a run of bytes from I on at ascending addresses and go on, or take MemoryBoundsError; before the fault
the writes below the failing address were made on the bus, and which bytes hold their new value is free
(R54, R123, R124, R162). -/
def storeBytes (instr : Instr) (bytes : List Byte) (s : State) : State :=
  match busWriteN s.mem s.dataBase bytes with
  | .ok m => ({ s with mem := m }.emit (writeEvents s.dataBase bytes)).fallThrough
  | .error addr =>
    ({ s with mem := s.mem.writeSome (fun a => s.landed (.mem a)) s.dataBase bytes }.emit
      (writeEvents s.dataBase (bytes.take (addr - s.dataBase)))).dataFault instr addr

/-- FX33: the decimal digits of Vx to I, I + 1, I + 2 (R123). -/
def execLdB (x : Reg) (s : State) : Host.Outcome State Fault Refusal :=
  .next (storeBytes (.ldB x) (bcdDigits (s.readReg x)) s)

/-- FX55: V0 to Vx inclusive to I, I + 1, ..., I + X (R124). -/
def execStoreRegs (x : Reg) (s : State) : Host.Outcome State Fault Refusal :=
  .next (storeBytes (.storeRegs x) (s.regsUpTo x) s)

/-- The registers after an FX65 that faults: a register whose byte exists holds its old value or that byte, freely
(R162). -/
def State.faultLoadedRegs (s : State) (x : Reg) : Vector Byte 16 :=
  Vector.ofFn fun k =>
    if k.val ≤ x.val ∧ s.dataBase + k.val < Config.memSize ∧ s.landed (.reg k) then
      s.mem.read (s.dataBase + k.val)
    else s.v.get k

/-- FX65: V0 to Vx inclusive from I, I + 1, ..., I + X (R125). -/
def execLoadRegs (x : Reg) (s : State) : Host.Outcome State Fault Refusal :=
  .next (match busReadN s.mem s.dataBase (x.val + 1) with
    | .ok bytes =>
      ({ s with v := loadedRegs s.v bytes }.emit (readEvents s.dataBase (x.val + 1))).fallThrough
    | .error addr =>
      ({ s with v := s.faultLoadedRegs x }.emit
        (readEvents s.dataBase (addr - s.dataBase))).dataFault (.loadRegs x) addr)

end Sys2Proof.Machine
end

