-- ==== Sys2Proof/Machine/Keypad.lean ====
section
/-! DEFINITION. Keypad instructions (spec 45_keypad.md). -/

namespace Sys2Proof.Machine

/-- EX9E: skip if the key whose code is the whole of Vx is pressed; one query (R140, R142). -/
def execSkp (x : Reg) (s : State) : Host.Outcome State Fault Refusal :=
  .next ((s.emit [.keyPoll (s.readReg x)]).skipIf (s.inputs.keyPressed (s.readReg x)))

/-- EXA1: skip if the key whose code is the whole of Vx is not pressed; one query (R141, R142). -/
def execSknp (x : Reg) (s : State) : Host.Outcome State Fault Refusal :=
  .next ((s.emit [.keyPoll (s.readReg x)]).skipIf (!s.inputs.keyPressed (s.readReg x)))

/-- FX0A: the lowest pressed key to Vx and `pc <- pc0 + 2`; with no key pressed nothing changes, PC neither
(R143). -/
def execLdVxK (x : Reg) (s : State) : Host.Outcome State Fault Refusal :=
  .next (match s.inputs.lowestKey with
    | some k => ((s.writeReg x (BitVec.ofNat 8 k)).emit (pollEvents (k + 1))).fallThrough
    | none => s.emit (pollEvents 16))

end Sys2Proof.Machine
end

