-- ==== Sys2Proof/Machine/Timers.lean ====
section
/-! DEFINITION. Timer instructions (spec 46_timers.md); `t_x` is the clock sample of the execute phase (R84). -/

namespace Sys2Proof.Machine

/-- FX07: `V[X] <- remaining(DT, t_x)` (R150). -/
def execLdVxDT (x : Reg) (s : State) : Host.Outcome State Fault Refusal :=
  .next ((s.writeReg x (s.dt.remaining s.inputs.timeExec)).emit [.clockSample]).fallThrough

/-- FX15: `set_timer(DT, V[X], t_x)` (R151). -/
def execLdDT (x : Reg) (s : State) : Host.Outcome State Fault Refusal :=
  .next ((s.setDT (s.readReg x) s.inputs.timeExec).emit [.clockSample]).fallThrough

/-- FX18: `set_timer(ST, V[X], t_x)` (R152). -/
def execLdST (x : Reg) (s : State) : Host.Outcome State Fault Refusal :=
  .next ((s.setST (s.readReg x) s.inputs.timeExec).emit [.clockSample]).fallThrough

end Sys2Proof.Machine
end

