-- ==== Sys2Proof/Machine/Step.lean ====
section
/-! DEFINITION. One step of the CHIP-8 CORE: fetch, audio check, dispatch, execute (spec 40_step_cycle.md R80 to
R89). -/

namespace Sys2Proof.Machine

/-- The end of a step that executed an instruction: the inputs of the next step are drawn. -/
def endStep : Host.Outcome State Fault Refusal → Host.Outcome State Fault Refusal
  | .next t => .next t.nextInputs
  | .fault f => .fault f
  | .refused r => .refused r

/-- One step request (R89).  A halted core does nothing and its fault stays in the latch (R86, R161).  The spec does
not say what a trace holds after such an ignored request; that `events` keeps the events of the step that raised the
fault is the model's DESIGN CHOICE (log 14). -/
def step (s : State) : Host.Outcome State Fault Refusal :=
  match s.fault with
  | some _ => .next s
  | none =>
    match s.fetch with
    | .error addr => .next (s.fetchFault addr)
    | .ok (high, low) =>
      match decodePair high low with
      | .error _ => .next (s.unknownOpcode high low)
      | .ok i => endStep (exec i s.afterFetch)

/-- `s` with the instruction word `w` (numbered as spec/opcode_table.json numbers it) at PC and PC + 1, high byte
first, where the next step fetches (R43, R80).  It places nothing else: a step runs the word where no fault is
latched and PC is at most 4094. -/
def State.withFetchWord (s : State) (nbits w : Nat) : State :=
  { s with mem := s.mem.writeN s.pc.toNat (wordBytes (BitVec.ofNat 16 (w % 2 ^ nbits))) }

end Sys2Proof.Machine
end

