-- ==== Sys2Proof/Machine/HostMoves.lean ====
section
/-! DEFINITION. What the host does to the core between and before steps: reset, load, launch, step requests, and
the fault outputs (spec 20_memory.md R52, 60_exceptions.md R167, R168, R175, R181, 70_reset_and_hazards.md R190 to
R195). -/

namespace Sys2Proof.Machine

/-- `load(offset, bytes)`: all of it, or LoadError in the latch and nothing written (R52, R167, D17); a latch that
holds a fault keeps it (R161).  Legal only between reset and the first step, which is the host's duty (R195) and which
`Reaches` of Safety.lean says. -/
def State.load (s : State) (offset : Nat) (bytes : List Byte) : State :=
  if offset + bytes.length > Config.memSize then s.raise (s.fault.getD (.loadError offset bytes.length))
  else { s with mem := s.mem.writeN offset bytes }

/-- The launch protocol: reset, the 80 bytes of the font, the ROM (R5, R192).  A ROM above 3584 bytes ends in
LoadError.  A host that leaves the font out (R195) loads the ROM alone with `State.load`. -/
def launch (font : Vector Byte Config.fontLen) (rom : List Byte) : State :=
  (State.reset.load Config.fontBase font.toList).load Config.programBase rom

/-- A move of the host (R175, R181, R195). -/
inductive HostMove where
  /-- Reset the core (R190). -/
  | reset
  /-- Load an image (R52). -/
  | load (offset : Nat) (bytes : List Byte)
  /-- Request one step (R175). -/
  | step
deriving DecidableEq, Repr

/-- What a host's move does. -/
def hostMove (m : HostMove) (s : State) : Host.Outcome State Fault Refusal :=
  match m with
  | .reset => .next s.hostReset
  | .load offset bytes => .next (s.load offset bytes)
  | .step => step s

/-- The numeric fault kind (R168, D9). -/
def Fault.code : Fault → Nat
  | .memoryBoundsError _ _ _ => 1
  | .stackOverflow _ _ => 2
  | .stackUnderflow _ _ => 3
  | .unknownOpcode _ _ _ => 4
  | .loadError _ _ => 5

/-- The field `pc` of the fault record: where the faulting step started (R168).  For LoadError, which no step
raises, R168 is silent on this field; that it is absent is the model's DESIGN CHOICE (log 15). -/
def Fault.recordPc : Fault → Option Word
  | .memoryBoundsError pc _ _ => some pc
  | .stackOverflow pc _ => some pc
  | .stackUnderflow pc _ => some pc
  | .unknownOpcode pc _ _ => some pc
  | .loadError _ _ => none

/-- The field `word` of the fault record, absent for a fetch fault and for LoadError (R168). -/
def Fault.recordWord : Fault → Option Word
  | .memoryBoundsError _ word _ => word
  | .stackOverflow _ word => some word
  | .stackUnderflow _ word => some word
  | .unknownOpcode _ high low => some (high ++ low)
  | .loadError _ _ => none

/-- The field `addr` of the fault record, present for MemoryBoundsError only (R168). -/
def Fault.recordAddr : Fault → Option Word
  | .memoryBoundsError _ _ addr => some addr
  | .stackOverflow _ _ => none
  | .stackUnderflow _ _ => none
  | .unknownOpcode _ _ _ => none
  | .loadError _ _ => none

/-- The output `fault_kind`: 0 when no fault is latched (R168, R181). -/
def State.faultKind (s : State) : Nat :=
  match s.fault with
  | none => 0
  | some f => f.code

end Sys2Proof.Machine
end

