-- ==== Sys2Proof/Safety.lean ====
section
/-! DEFINITION. What counts as a good state and a safe run, in the terms the statements use: halted, awaiting a
key, finished, the machine's invariant, launch states and reachable states. -/

namespace Sys2Proof.Machine

/-- The core is halted: a fault is latched (R31, R161). -/
abbrev State.Halted (s : State) : Prop := s.fault ≠ none

/-- The instruction word at PC as fetch would read it, if both its bytes exist (R43, R80). -/
def State.wordAtPc (s : State) : Option Word :=
  match s.fetch with
  | .ok (high, low) => some (high ++ low)
  | .error _ => none

/-- "Awaiting key": no fault, and the word at PC matches FX0A (R32). -/
abbrev State.AwaitingKey (s : State) : Prop :=
  s.fault = none ∧ ∃ w ∈ s.wordAtPc, w &&& 0xF0FF = 0xF00A

/-- The end of a run by the spec's convention: no fault, and the word at PC is a 1NNN that jumps to itself (R194,
D13). -/
abbrev State.Finished (s : State) : Prop :=
  s.fault = none ∧ ∃ w ∈ s.wordAtPc, w &&& 0xF000 = 0x1000 ∧ w &&& 0x0FFF = s.pc

/-- The invariant of the machine, kept by every step. -/
structure State.Inv (s : State) : Prop where
  /-- Memory is in its canonical form, within 4096 bytes (R40). -/
  memWf : s.mem.wf
  /-- At most 16 return addresses (R21). -/
  stackDepth : s.stack.length ≤ 16
  /-- Every stacked value is some `pc0 + 2` with `pc0 ≤ 4094` (R22). -/
  stackRange : ∀ a ∈ s.stack, 2 ≤ a.toNat ∧ a.toNat ≤ 4096
  /-- PC never exceeds what a rule can write: 0xFFF + 0xFF at most (R20). -/
  pcRange : s.pc.toNat ≤ 0x10FE
  /-- The clock has not gone below the origin the model gives it (log 5). -/
  clockOrigin : 0 ≤ s.inputs.timeAudio
  /-- The delay timer was not set in the future (R25, R179). -/
  dtStamp : s.dt.stamp ≤ s.inputs.timeAudio
  /-- The sound timer was not set in the future (R25, R179). -/
  stStamp : s.st.stamp ≤ s.inputs.timeAudio
  /-- `t_x` is not earlier than `t_a` (R88). -/
  clockOrder : s.inputs.timeAudio ≤ s.inputs.timeExec

/-- The states the host's moves lead to, within its duties (R192, R195).  `started` says whether a step has been
requested since the last reset: `load` is legal only before the first one (D17). -/
inductive Reaches : (started : Bool) → State → Prop where
  /-- The core after reset. -/
  | reset : Reaches false State.reset
  /-- A load, before the first step. -/
  | load (s : State) (offset : Nat) (bytes : List Byte) : Reaches false s → Reaches false (s.load offset bytes)
  /-- A step request. -/
  | step (started : Bool) (s t : State) : Reaches started s → step s = .next t → Reaches true t
  /-- A reset at any moment. -/
  | hostReset (started : Bool) (s : State) : Reaches started s → Reaches false s.hostReset

/-- A state some run of the core reaches. -/
def Reachable (s : State) : Prop := ∃ started, Reaches started s

/-- The first `n` steps from `s` end with no fault latched: the run is safe. -/
def State.SafeRun (s : State) (n : Nat) : Prop :=
  ∃ t, Host.Core.run Sys2Proof.core n s = .next t ∧ t.fault = none

end Sys2Proof.Machine
end

