-- ==== Sys2Proof/Certificates/Slice0/Obligations.lean ====
section
/-! DEFINITION. The statements about the CHIP-8 CORE for the provers.  Helper notions first, each cited; then one
`def Obligations.<Name> : Prop` per statement. -/

open Sys2Proof Sys2Proof.Machine

namespace Sys2Proof

/-- `t` is `s` with general registers changed and PC moved on by 2, and nothing else changed. -/
def OnlyRegsAndPc (s t : State) : Prop := t = { s with v := t.v, pc := s.pc + 2 }

/-- The general registers an instruction may write, its flag side effect among them (10_state.md R13). -/
def Instr.writesReg : Instr → Reg → Prop
  | .ldImm x _, k => k = x
  | .addImm x _, k => k = x
  | .ldReg x _, k => k = x
  | .orReg x _, k => k = x
  | .andReg x _, k => k = x
  | .xorReg x _, k => k = x
  | .addReg x _, k => k = x ∨ k = 15
  | .subReg x _, k => k = x ∨ k = 15
  | .shr x _, k => k = x ∨ k = 15
  | .subnReg x _, k => k = x ∨ k = 15
  | .shl x _, k => k = x ∨ k = 15
  | .rnd x _, k => k = x
  | .drw _ _ _, k => k = 15
  | .ldVxDT x, k => k = x
  | .ldVxK x, k => k = x
  | .loadRegs x, k => k ≤ x
  | _, _ => False

/-- How many bytes an instruction stores to memory, from the address in I on (20_memory.md R45). -/
def Instr.storedBytes : Instr → Nat
  | .ldB _ => 3
  | .storeRegs x => x.val + 1
  | _ => 0

/-- How many data bytes an instruction accesses, from the address in I on (20_memory.md R45). -/
def Instr.dataBytes : Instr → Nat
  | .drw _ _ n => n.val
  | .ldB _ => 3
  | .storeRegs x => x.val + 1
  | .loadRegs x => x.val + 1
  | _ => 0

/-- A set bit of the sprite lands on pixel `(x, y)`: row `r` of the sprite is drawn at `(oy + r) mod 32`, and its bit
`7 - c` at column `(ox + c) mod 64` (44_display.md R134). -/
def SpriteBitAt (ox oy : Byte) (rows : List Byte) (x : Fin 64) (y : Fin 32) : Prop :=
  ∃ r c, ∃ h : r < rows.length, c < 8 ∧ rows[r].getLsbD (7 - c) = true ∧
    x.val = (ox.toNat + c) % 64 ∧ y.val = (oy.toNat + r) % 32

/-- The sprite rows DXYN reads (44_display.md R133). -/
def spriteRows (s : State) (n : RowCount) : List Byte :=
  (List.range n.val).map fun k => s.mem.read (s.i.toNat + k)

end Sys2Proof

/-! ## Encoding -/

/-- Decoding the encoding of an instruction gives it back, for every instruction and every operand. -/
def Obligations.DecodeOfEncode : Prop :=
  ∀ i : Instr, decodeWord (encode i) = .ok i

/-- Each word has at most one meaning: an instruction that a word decodes to encodes to that very word. -/
def Obligations.EncodeOfDecode : Prop :=
  ∀ (w : Word) (i : Instr), decodeWord w = .ok i → encode i = w

/-- The decoder accepts exactly the words some row of R66 selects, reads the instruction of that row, and no two
rows select one word (30_encoding.md R64, R66). -/
def Obligations.DecodeAcceptsTableRows : Prop :=
  ∀ w : Word,
    ((∃ i, decodeWord w = .ok i) ↔ ∃ r ∈ opcodeTable, w &&& r.mask = r.value) ∧
    (∀ i, decodeWord w = .ok i → rowSelects i.rowNumber w = true) ∧
    (∀ r ∈ opcodeTable, ∀ r' ∈ opcodeTable, w &&& r.mask = r.value → w &&& r'.mask = r'.value → r = r')

/-- The decoder accepts exactly the words whose fields are well-formed, and rejects every other word by name with its
two bytes (30_encoding.md R64, R68). -/
def Obligations.DecodeRejectsIllFormedFields : Prop :=
  ∀ w : Word,
    ((extractFields (highByte w) (lowByte w)).wf = true → ∃ i, decodeWord w = .ok i) ∧
    ((extractFields (highByte w) (lowByte w)).wf = false →
      decodeWord w = .error (.unknownOpcode (highByte w) (lowByte w)))

/-- Words written out from the spec's encodings decode to the instructions they stand for (95_test_vectors.md DEC-1
to DEC-6). -/
def Obligations.DecodeSampleWords : Prop :=
  decodePair 0x8A 0xB4 = .ok (.addReg 10 11) ∧
  decodePair 0xD1 0x2F = .ok (.drw 1 2 15) ∧
  decodePair 0x1F 0xFF = .ok (.jp 0xFFF) ∧
  decodePair 0xF1 0x65 = .ok (.loadRegs 1) ∧
  decodePair 0x60 0x05 = .ok (.ldImm 0 5) ∧
  decodePair 0x05 0x60 = .error (.unknownOpcode 0x05 0x60) ∧
  decodePair 0x50 0x01 = .error (.unknownOpcode 0x50 0x01)

/-! ## Reset, load and launch -/

/-- What reset leaves: everything zero, empty and false, and PC at 0x200.  The value of PC is the spec's own choice
D1; timer stamps are left out because R35 leaves them unspecified (log 7). -/
def Obligations.ResetState : Prop :=
  (∀ k, State.reset.readReg k = 0) ∧ State.reset.i = 0 ∧ State.reset.pc = 0x200 ∧ State.reset.stack = [] ∧
  State.reset.dt.value = 0 ∧ State.reset.st.value = 0 ∧ (∀ x y, State.reset.fb.pixel x y = false) ∧
  (∀ a, State.reset.mem.read a = 0) ∧ State.reset.fault = none

/-- A reset by the host leaves nothing of what was before, a latched fault included (the spec's own choice D18). -/
def Obligations.HostResetClearsEverything : Prop :=
  ∀ s : State, (∀ k, s.hostReset.readReg k = 0) ∧ s.hostReset.i = 0 ∧ s.hostReset.pc = 0x200 ∧
    s.hostReset.stack = [] ∧ s.hostReset.dt.value = 0 ∧ s.hostReset.st.value = 0 ∧
    (∀ x y, s.hostReset.fb.pixel x y = false) ∧ (∀ a, s.hostReset.mem.read a = 0) ∧ s.hostReset.fault = none

/-- A load writes all of its bytes and nothing else, or latches LoadError (unless a fault is latched already, which
stays) and writes nothing; the latch is the spec's own choice D17. -/
def Obligations.LoadAllOrNothing : Prop :=
  ∀ (s : State) (offset : Nat) (bytes : List Byte),
    (offset + bytes.length > 4096 →
      s.load offset bytes = { s with fault := some (s.fault.getD (.loadError offset bytes.length)) }) ∧
    (offset + bytes.length ≤ 4096 → s.mem.wf → ∃ t, s.load offset bytes = t ∧ t = { s with mem := t.mem } ∧
      (∀ k (h : k < bytes.length), t.mem.read (offset + k) = bytes[k]) ∧
      (∀ a, a < offset ∨ offset + bytes.length ≤ a → t.mem.read a = s.mem.read a))

/-- The launch state: the 80 bytes of the font at 0, the ROM at 0x200, zero elsewhere, PC at 0x200 (D1) and no
fault. -/
def Obligations.LaunchPlacesImages : Prop :=
  ∀ (font : Vector Byte Config.fontLen) (rom : List Byte), rom.length ≤ 3584 →
    (launch font rom).fault = none ∧ (launch font rom).pc = 0x200 ∧
    (∀ k (h : k < 80), (launch font rom).mem.read k = font[k]) ∧
    (∀ a, 80 ≤ a → a < 0x200 → (launch font rom).mem.read a = 0) ∧
    (∀ k (h : k < rom.length), (launch font rom).mem.read (0x200 + k) = rom[k]) ∧
    (∀ a, 0x200 + rom.length ≤ a → (launch font rom).mem.read a = 0)

/-! ## The step cycle -/

/-- A step requested while a fault is latched does nothing: no state of the spec changes, by the spec's own choice D7.
That the model's own fields stay too is the model's choice: the trace keeps the events of the step that raised the
fault (log 14), and no new inputs are drawn (log 13). -/
def Obligations.HaltedStepDoesNothing : Prop :=
  ∀ (s : State) (f : Fault), s.fault = some f → step s = .next s

/-- A fetch beyond the memory latches MemoryBoundsError with the first failing address and changes nothing else of
the machine; the trace of the step is empty.  The latch and its record are the spec's own choices D7, D8, D16. -/
def Obligations.FetchBeyondMemoryFaults : Prop :=
  ∀ s : State, s.fault = none → 4095 ≤ s.pc.toNat →
    step s = .next { s with
      events := []
      fault := some (.memoryBoundsError s.pc none (if s.pc.toNat = 4095 then 4096 else s.pc)) }

/-- A word that names no instruction latches UnknownOpcode with its two bytes, after the audio check, and changes
nothing else of the machine (D7, D8 for the latch and the PC in the record). -/
def Obligations.IllegalWordRaisesUnknownOpcode : Prop :=
  ∀ (s : State) (high low : Byte), s.fault = none → s.pc.toNat ≤ 4094 →
    s.mem.read s.pc.toNat = high → s.mem.read (s.pc.toNat + 1) = low → (extractFields high low).wf = false →
    step s = .next { s with
      events := [.memRead s.pc.toNat, .memRead (s.pc.toNat + 1)] ++
        (if 0 < (s.st.remaining s.inputs.timeAudio).toNat then [.audioSignal] else [])
      fault := some (.unknownOpcode s.pc high low) }

/-- A step runs the instruction its two fetched bytes decode to: it is `exec` of it in a state that differs from the
present one only in the trace (the fetch reads and the audio check), after which only the model's own inputs are
drawn anew. -/
def Obligations.StepRunsDecodedInstruction : Prop :=
  ∀ (s t : State) (high low : Byte) (i : Instr), s.fault = none → s.pc.toNat ≤ 4094 →
    s.mem.read s.pc.toNat = high → s.mem.read (s.pc.toNat + 1) = low → decodePair high low = .ok i →
    exec i { s with
      events := [.memRead s.pc.toNat, .memRead (s.pc.toNat + 1)] ++
        (if 0 < (s.st.remaining s.inputs.timeAudio).toNat then [.audioSignal] else []) } = .next t →
    step s = .next { t with inputs := Inputs.draw (t.draws + 1) t.inputs.timeExec, draws := t.draws + 1 }

/-- An instruction word placed where the next step fetches is the one that step runs. -/
def Obligations.PlacedWordIsRun : Prop :=
  ∀ (s : State) (w : Word) (i : Instr), s.fault = none → s.pc.toNat ≤ 4094 → s.mem.wf → decodeWord w = .ok i →
    step (s.withFetchWord 16 w.toNat) = endStep (exec i (s.withFetchWord 16 w.toNat).afterFetch)

/-- Every step whose fetch succeeds emits, right after its two fetch reads, one audio signal if and only if the sound
timer's remaining value is above 0, and none later. -/
def Obligations.AudioSignalExactlyWhileSounding : Prop :=
  ∀ s : State, s.fault = none → s.pc.toNat ≤ 4094 →
    ∃ t rest, step s = .next t ∧
      t.events = [.memRead s.pc.toNat, .memRead (s.pc.toNat + 1)] ++
        (if 0 < (s.st.remaining s.inputs.timeAudio).toNat then [.audioSignal] else []) ++ rest ∧
      .audioSignal ∉ rest

/-- The clock never goes back: a step that ends without a fault leaves clock samples not earlier than its own, in
order. -/
def Obligations.ClockNeverGoesBack : Prop :=
  ∀ s t : State, s.fault = none → step s = .next t → t.fault = none →
    s.inputs.timeExec ≤ t.inputs.timeAudio ∧ t.inputs.timeAudio ≤ t.inputs.timeExec

/-! ## Memory -/

/-- The bus checks every address and wraps none; a write changes its byte and no other, and keeps the canonical
form. -/
def Obligations.BusChecksBounds : Prop :=
  ∀ (m : Memory) (a : Nat) (b : Byte),
    (4095 < a → busRead m a = .error a ∧ busWrite m a b = .error a) ∧
    (a ≤ 4095 → busRead m a = .ok (m.read a) ∧
      ∃ m', busWrite m a b = .ok m' ∧ (m.wf → m'.wf ∧ m'.read a = b) ∧ ∀ j, j ≠ a → m'.read j = m.read j)

/-- A store is seen by the very next fetch: when FX55 stores two registers where PC then points, the next
instruction is made of their values. -/
def Obligations.StoreSeenByNextFetch : Prop :=
  ∀ (s t : State) (x k l : Reg), s.mem.wf → s.i.toNat + x.val ≤ 4095 → exec (.storeRegs x) s = .next t →
    l.val = k.val + 1 → l ≤ x → t.pc.toNat = s.i.toNat + k.val →
    t.fetch = .ok (s.readReg k, s.readReg l)

/-! ## Control transfer -/

/-- 00EE pops the return address into PC; on an empty stack it latches StackUnderflow and changes nothing else (the
latch and its record: D7, D8). -/
def Obligations.ReturnPopsOrUnderflows : Prop :=
  ∀ s : State,
    (∀ a rest, s.stack = a :: rest → exec .ret s = .next { s with stack := rest, pc := a }) ∧
    (s.stack = [] → exec .ret s = .next { s with fault := some (.stackUnderflow s.pc 0x00EE) })

/-- 1NNN and BNNN set PC and change nothing else; BNNN adds V0, with no reduction. -/
def Obligations.JumpsSetPc : Prop :=
  ∀ (s : State) (nnn : Addr12),
    exec (.jp nnn) s = .next { s with pc := nnn.setWidth 16 } ∧
    ∃ t, exec (.jpV0 nnn) s = .next t ∧ t = { s with pc := t.pc } ∧
      t.pc.toNat = nnn.toNat + (s.readReg 0).toNat

/-- 2NNN pushes the address of the next instruction and jumps; at depth 16 it latches StackOverflow and changes
nothing else (the latch and its record: D7, D8). -/
def Obligations.CallPushesOrOverflows : Prop :=
  ∀ (s : State) (nnn : Addr12),
    (s.stack.length < 16 →
      exec (.call nnn) s = .next { s with stack := (s.pc + 2) :: s.stack, pc := nnn.setWidth 16 }) ∧
    (16 ≤ s.stack.length →
      exec (.call nnn) s = .next { s with fault := some (.stackOverflow s.pc (0x2#4 ++ nnn)) })

/-- 3XNN and 4XNN skip on equality and on inequality with the immediate, and change PC only. -/
def Obligations.SkipsOnImmediate : Prop :=
  ∀ (s : State) (x : Reg) (nn : Byte),
    exec (.seImm x nn) s = .next { s with pc := if s.readReg x = nn then s.pc + 4 else s.pc + 2 } ∧
    exec (.sneImm x nn) s = .next { s with pc := if s.readReg x ≠ nn then s.pc + 4 else s.pc + 2 }

/-- 5XY0 and 9XY0 skip on equality and on inequality of two registers, and change PC only. -/
def Obligations.SkipsOnRegisters : Prop :=
  ∀ (s : State) (x y : Reg),
    exec (.seReg x y) s = .next { s with pc := if s.readReg x = s.readReg y then s.pc + 4 else s.pc + 2 } ∧
    exec (.sneReg x y) s = .next { s with pc := if s.readReg x ≠ s.readReg y then s.pc + 4 else s.pc + 2 }

/-! ## Registers and arithmetic -/

/-- 6XNN and 8XY0 write Vx and nothing else. -/
def Obligations.MovesWriteOnlyVx : Prop :=
  ∀ (s : State) (x y : Reg) (nn : Byte),
    (∃ t, exec (.ldImm x nn) s = .next t ∧ OnlyRegsAndPc s t ∧
      ∀ k, t.readReg k = if k = x then nn else s.readReg k) ∧
    (∃ t, exec (.ldReg x y) s = .next t ∧ OnlyRegsAndPc s t ∧
      ∀ k, t.readReg k = if k = x then s.readReg y else s.readReg k)

/-- 7XNN adds modulo 256 and writes no flag. -/
def Obligations.AddImmediateWrapsWithoutFlag : Prop :=
  ∀ (s : State) (x : Reg) (nn : Byte),
    ∃ t, exec (.addImm x nn) s = .next t ∧ OnlyRegsAndPc s t ∧
      (t.readReg x).toNat = ((s.readReg x).toNat + nn.toNat) % 256 ∧ ∀ k, k ≠ x → t.readReg k = s.readReg k

/-- 8XY1, 8XY2 and 8XY3 write Vx and leave VF alone. -/
def Obligations.LogicalOpsLeaveFlagAlone : Prop :=
  ∀ (s : State) (x y : Reg),
    (∃ t, exec (.orReg x y) s = .next t ∧ OnlyRegsAndPc s t ∧
      ∀ k, t.readReg k = if k = x then s.readReg x ||| s.readReg y else s.readReg k) ∧
    (∃ t, exec (.andReg x y) s = .next t ∧ OnlyRegsAndPc s t ∧
      ∀ k, t.readReg k = if k = x then s.readReg x &&& s.readReg y else s.readReg k) ∧
    (∃ t, exec (.xorReg x y) s = .next t ∧ OnlyRegsAndPc s t ∧
      ∀ k, t.readReg k = if k = x then s.readReg x ^^^ s.readReg y else s.readReg k)

/-- 8XY4 writes the sum modulo 256 to Vx and the carry to VF, both operands read first; where X is 0xF the sum
stays. -/
def Obligations.AddSetsCarry : Prop :=
  ∀ (s : State) (x y : Reg),
    ∃ t, exec (.addReg x y) s = .next t ∧ OnlyRegsAndPc s t ∧
      (t.readReg x).toNat = ((s.readReg x).toNat + (s.readReg y).toNat) % 256 ∧
      (x ≠ 15 → t.readReg 15 = if (s.readReg x).toNat + (s.readReg y).toNat > 255 then 1 else 0) ∧
      ∀ k, k ≠ x → k ≠ 15 → t.readReg k = s.readReg k

/-- 8XY5 and 8XY7 write the no-borrow flag to VF, then the difference modulo 256 to Vx.  The difference is computed
after the flag write, so an operand named VF is the flag: the spec's own choice D3 (`sequential`), which matters
only where X or Y is 0xF. -/
def Obligations.SubtractsSetNoBorrow : Prop :=
  ∀ (s : State) (x y : Reg),
    (∃ t, exec (.subReg x y) s = .next t ∧ OnlyRegsAndPc s t ∧
      ∀ f : Byte, f = (if (s.readReg x).toNat ≥ (s.readReg y).toNat then 1 else 0) →
        (t.readReg x).toNat =
          ((if x = 15 then f else s.readReg x).toNat + 256 - (if y = 15 then f else s.readReg y).toNat) % 256 ∧
        (x ≠ 15 → t.readReg 15 = f) ∧ ∀ k, k ≠ x → k ≠ 15 → t.readReg k = s.readReg k) ∧
    (∃ t, exec (.subnReg x y) s = .next t ∧ OnlyRegsAndPc s t ∧
      ∀ f : Byte, f = (if (s.readReg y).toNat ≥ (s.readReg x).toNat then 1 else 0) →
        (t.readReg x).toNat =
          ((if y = 15 then f else s.readReg y).toNat + 256 - (if x = 15 then f else s.readReg x).toNat) % 256 ∧
        (x ≠ 15 → t.readReg 15 = f) ∧ ∀ k, k ≠ x → k ≠ 15 → t.readReg k = s.readReg k)

/-- 8XY6 and 8XYE write the bit shifted out to VF, then the shifted Vx; Vy is never read.  Where X is 0xF the shift
is of the flag just written: the spec's own choice D3 (`sequential`). -/
def Obligations.ShiftsSetBitOut : Prop :=
  ∀ (s : State) (x y : Reg),
    (∃ t, exec (.shr x y) s = .next t ∧ OnlyRegsAndPc s t ∧
      ∀ f : Byte, f.toNat = (s.readReg x).toNat % 2 →
        (t.readReg x).toNat = (if x = 15 then f else s.readReg x).toNat / 2 ∧
        (x ≠ 15 → t.readReg 15 = f) ∧ ∀ k, k ≠ x → k ≠ 15 → t.readReg k = s.readReg k) ∧
    (∃ t, exec (.shl x y) s = .next t ∧ OnlyRegsAndPc s t ∧
      ∀ f : Byte, f.toNat = (s.readReg x).toNat / 128 →
        (t.readReg x).toNat = (if x = 15 then f else s.readReg x).toNat * 2 % 256 ∧
        (x ≠ 15 → t.readReg 15 = f) ∧ ∀ k, k ≠ x → k ≠ 15 → t.readReg k = s.readReg k)

/-- CXNN writes the random byte, whatever it is, masked with NN; one draw is made. -/
def Obligations.RandomByteIsMasked : Prop :=
  ∀ (s : State) (x : Reg) (nn : Byte),
    ∃ t, exec (.rnd x nn) s = .next t ∧
      t = { s with v := t.v, pc := s.pc + 2, events := s.events ++ [.randomDraw] } ∧
      ∀ k, t.readReg k = if k = x then s.inputs.random &&& nn else s.readReg k

/-! ## Index register and memory instructions -/

/-- ANNN, FX1E and FX29 write I and PC only; FX1E wraps modulo 65536 and writes no flag; FX29 multiplies the whole
byte. -/
def Obligations.IndexLoads : Prop :=
  ∀ (s : State) (x : Reg) (nnn : Addr12),
    exec (.ldI nnn) s = .next { s with i := nnn.setWidth 16, pc := s.pc + 2 } ∧
    (∃ t, exec (.addI x) s = .next t ∧ t = { s with i := t.i, pc := s.pc + 2 } ∧
      t.i.toNat = (s.i.toNat + (s.readReg x).toNat) % 65536) ∧
    (∃ t, exec (.ldF x) s = .next t ∧ t = { s with i := t.i, pc := s.pc + 2 } ∧
      t.i.toNat = (s.readReg x).toNat * 5)

/-- FX33 in bounds stores the three decimal digits of Vx from I on, and no other byte changes. -/
def Obligations.BcdStoresDigits : Prop :=
  ∀ (s : State) (x : Reg), s.mem.wf → s.i.toNat + 2 ≤ 4095 →
    ∃ t, exec (.ldB x) s = .next t ∧
      t = { s with mem := t.mem, events := t.events, pc := s.pc + 2 } ∧
      (t.mem.read s.i.toNat).toNat = (s.readReg x).toNat / 100 ∧
      (t.mem.read (s.i.toNat + 1)).toNat = (s.readReg x).toNat / 10 % 10 ∧
      (t.mem.read (s.i.toNat + 2)).toNat = (s.readReg x).toNat % 10 ∧
      (∀ a, a < s.i.toNat ∨ s.i.toNat + 3 ≤ a → t.mem.read a = s.mem.read a) ∧
      t.events = s.events ++ [.memWrite s.i.toNat (t.mem.read s.i.toNat),
        .memWrite (s.i.toNat + 1) (t.mem.read (s.i.toNat + 1)),
        .memWrite (s.i.toNat + 2) (t.mem.read (s.i.toNat + 2))]

/-- FX55 in bounds stores V0 to Vx from I on, I unchanged, and no other byte changes. -/
def Obligations.StoreRegsWritesRun : Prop :=
  ∀ (s : State) (x : Reg), s.mem.wf → s.i.toNat + x.val ≤ 4095 →
    ∃ t, exec (.storeRegs x) s = .next t ∧
      t = { s with mem := t.mem, events := t.events, pc := s.pc + 2 } ∧
      (∀ k : Reg, k ≤ x → t.mem.read (s.i.toNat + k.val) = s.readReg k) ∧
      (∀ a, a < s.i.toNat ∨ s.i.toNat + x.val < a → t.mem.read a = s.mem.read a) ∧
      t.events = s.events ++
        (List.range (x.val + 1)).map (fun k => .memWrite (s.i.toNat + k) (t.mem.read (s.i.toNat + k)))

/-- FX65 in bounds loads V0 to Vx from I on; the registers above Vx, I and memory are unchanged. -/
def Obligations.LoadRegsReadsRun : Prop :=
  ∀ (s : State) (x : Reg), s.i.toNat + x.val ≤ 4095 →
    ∃ t, exec (.loadRegs x) s = .next t ∧
      t = { s with v := t.v, events := t.events, pc := s.pc + 2 } ∧
      (∀ k : Reg, k ≤ x → t.readReg k = s.mem.read (s.i.toNat + k.val)) ∧
      (∀ k : Reg, x < k → t.readReg k = s.readReg k) ∧
      t.events = s.events ++ (List.range (x.val + 1)).map (fun k => .memRead (s.i.toNat + k))

/-- A data access that leaves the memory latches MemoryBoundsError with the PC, the word and the first failing
address: I when I is above 4095, else 4096 (the order of accesses, the latch and the record: D16, D7, D8). -/
def Obligations.DataAccessPastEndFaults : Prop :=
  ∀ (s : State) (i : Instr), 0 < i.dataBytes → 4096 < s.i.toNat + i.dataBytes →
    ∃ t, exec i s = .next t ∧
      t.fault = some (.memoryBoundsError s.pc (some (encode i)) (if 4095 < s.i.toNat then s.i else 4096))

/-- What an instruction that takes a data MemoryBoundsError leaves: everything its rule does not write is unchanged,
and what it does write holds its old value or the one the rule would have written, PC among it (D7). -/
def Obligations.DataFaultLeavesOldOrNew : Prop :=
  ∀ (s t : State) (i : Instr), s.mem.wf → 0 < i.dataBytes → 4096 < s.i.toNat + i.dataBytes → exec i s = .next t →
    (t.pc = s.pc ∨ t.pc = s.pc + 2) ∧
    t = { s with v := t.v, mem := t.mem, fb := t.fb, pc := t.pc, fault := t.fault, events := t.events } ∧
    match i with
    | .ldB x => t.v = s.v ∧ t.fb = s.fb ∧
        ∀ a, t.mem.read a = s.mem.read a ∨ (a = s.i.toNat ∧ (t.mem.read a).toNat = (s.readReg x).toNat / 100) ∨
          (a = s.i.toNat + 1 ∧ (t.mem.read a).toNat = (s.readReg x).toNat / 10 % 10)
    | .storeRegs x => t.v = s.v ∧ t.fb = s.fb ∧
        ∀ a, t.mem.read a = s.mem.read a ∨
          ∃ k : Reg, k ≤ x ∧ a = s.i.toNat + k.val ∧ a ≤ 4095 ∧ t.mem.read a = s.readReg k
    | .loadRegs x => t.mem = s.mem ∧ t.fb = s.fb ∧
        ∀ k, t.readReg k = s.readReg k ∨
          (k ≤ x ∧ s.i.toNat + k.val ≤ 4095 ∧ t.readReg k = s.mem.read (s.i.toNat + k.val))
    | .drw x y n => t.mem = s.mem ∧ (∀ k, k ≠ 15 → t.readReg k = s.readReg k) ∧
        (t.readReg 15 = s.readReg 15 ∨ t.readReg 15 = 0 ∨ t.readReg 15 = 1) ∧
        ∀ px py, t.fb.pixel px py ≠ s.fb.pixel px py →
          ∃ r c, r < n.val ∧ c < 8 ∧ px.val = ((s.readReg x).toNat + c) % 64 ∧
            py.val = ((s.readReg y).toNat + r) % 32 ∧
            (s.i.toNat + r ≤ 4095 → (s.mem.read (s.i.toNat + r)).getLsbD (7 - c) = true)
    | _ => True

/-! ## Display -/

/-- 00E0 turns every pixel off (R132), moves PC on by 2 (R130), and changes nothing else; it emits nothing.  That no
render event is emitted is the spec's own inference (R130, from R136). -/
def Obligations.ClearBlanksEveryPixel : Prop :=
  ∀ s : State, ∃ t, exec .cls s = .next t ∧ t = { s with fb := t.fb, pc := s.pc + 2 } ∧
    ∀ x y, t.fb.pixel x y = false

/-- DXYN in bounds (with N = 0 wherever I points) blits the rows from I on at (Vx, Vy), writes the collision flag to
VF, and emits one render event with the grid after the blit. -/
def Obligations.DrawCompletes : Prop :=
  ∀ (s : State) (x y : Reg) (n : RowCount), n.val = 0 ∨ s.i.toNat + n.val ≤ 4096 →
    ∃ b, b = drawSprite (s.readReg x) (s.readReg y) (spriteRows s n) s.fb ∧
      exec (.drw x y n) s = .next { s with
        v := s.v.set 15 (if b.collision then 1 else 0)
        fb := b.fb
        pc := s.pc + 2
        events := s.events ++ ((List.range n.val).map (fun k => .memRead (s.i.toNat + k)) ++ [.render b.fb]) }

/-- The blit toggles exactly the pixels a set sprite bit lands on, wrapping on both axes, and reports a collision
exactly when one of them was true. -/
def Obligations.DrawSpriteTogglesSpritePixels : Prop :=
  ∀ (ox oy : Byte) (rows : List Byte) (fb : Framebuffer), rows.length ≤ 15 →
    (∀ x y, (drawSprite ox oy rows fb).fb.pixel x y ≠ fb.pixel x y ↔ SpriteBitAt ox oy rows x y) ∧
    ((drawSprite ox oy rows fb).collision = true ↔ ∃ x y, fb.pixel x y = true ∧ SpriteBitAt ox oy rows x y)

/-- Drawing a sprite twice at one place restores the grid, and the second draw collides exactly when a set sprite bit
lands on a pixel that was false before the first (the premise conflict C3 restores). -/
def Obligations.DrawTwiceRestores : Prop :=
  ∀ (ox oy : Byte) (rows : List Byte) (fb : Framebuffer), rows.length ≤ 15 →
    (drawSprite ox oy rows (drawSprite ox oy rows fb).fb).fb = fb ∧
    ((drawSprite ox oy rows (drawSprite ox oy rows fb).fb).collision = true ↔
      ∃ x y, fb.pixel x y = false ∧ SpriteBitAt ox oy rows x y)

/-- DXY0 is legal wherever I points (R133): it leaves the grid unchanged (R135), writes 0 to VF (R131), and still
renders (R136). -/
def Obligations.DrawZeroRowsLeavesGrid : Prop :=
  ∀ (s : State) (x y : Reg),
    exec (.drw x y 0) s = .next { s with
      v := s.v.set 15 0, pc := s.pc + 2, events := s.events ++ [.render s.fb] }

/-! ## Keypad -/

/-- The keypad answers a code 0 to 15 with that key's level, and every code above 15 with a free Boolean (the spec's
own choice D4; log 8). -/
def Obligations.KeypadAnswers : Prop :=
  ∀ (inp : Inputs) (code : Byte),
    (∀ h : code.toNat < 16, inp.keyPressed code = inp.keys[code.toNat]) ∧
    (16 ≤ code.toNat → inp.keyPressed code = inp.highKey)

/-- EX9E and EXA1 skip when the key whose code is Vx is pressed and when it is not; one query is made and only PC
changes. -/
def Obligations.SkipsOnKey : Prop :=
  ∀ (s : State) (x : Reg),
    exec (.skp x) s = .next { s with
      pc := if s.inputs.keyPressed (s.readReg x) = true then s.pc + 4 else s.pc + 2
      events := s.events ++ [.keyPoll (s.readReg x)] } ∧
    exec (.sknp x) s = .next { s with
      pc := if s.inputs.keyPressed (s.readReg x) = false then s.pc + 4 else s.pc + 2
      events := s.events ++ [.keyPoll (s.readReg x)] }

/-- FX0A stores the lowest pressed key and goes on; with no key pressed it changes nothing, PC included.  The keys
are polled in ascending order up to the first that is pressed. -/
def Obligations.KeyWaitTakesLowestKey : Prop :=
  ∀ (s : State) (x : Reg),
    (∀ k : Fin 16, s.inputs.keys.get k = true → (∀ j, j < k → s.inputs.keys.get j = false) →
      exec (.ldVxK x) s = .next { s with
        v := s.v.set x (BitVec.ofNat 8 k.val)
        pc := s.pc + 2
        events := s.events ++ (List.range (k.val + 1)).map (fun j => .keyPoll (BitVec.ofNat 8 j)) }) ∧
    ((∀ k, s.inputs.keys.get k = false) →
      exec (.ldVxK x) s = .next { s with
        events := s.events ++ (List.range 16).map (fun j => .keyPoll (BitVec.ofNat 8 j)) })

/-- While awaiting a key, a step with no key pressed changes nothing of the machine and leaves it awaiting a key. -/
def Obligations.AwaitingKeyWaits : Prop :=
  ∀ s : State, s.AwaitingKey → (∀ k, s.inputs.keys.get k = false) →
    ∃ t, step s = .next t ∧ t = { s with inputs := t.inputs, draws := t.draws, events := t.events } ∧ t.AwaitingKey

/-! ## Timers -/

/-- FX07 writes the delay timer's remaining value at the execute phase's clock sample, and changes no timer. -/
def Obligations.DelayTimerIsRead : Prop :=
  ∀ (s : State) (x : Reg),
    ∃ t, exec (.ldVxDT x) s = .next t ∧
      t = { s with v := t.v, pc := s.pc + 2, events := s.events ++ [.clockSample] } ∧
      ∀ k, t.readReg k = if k = x then s.dt.remaining s.inputs.timeExec else s.readReg k

/-- FX15 and FX18 set value and stamp of their timer together, and change PC beside. -/
def Obligations.TimersAreSetTogether : Prop :=
  ∀ (s : State) (x : Reg),
    exec (.ldDT x) s = .next { s with
      dt := { value := s.readReg x, stamp := s.inputs.timeExec }
      pc := s.pc + 2
      events := s.events ++ [.clockSample] } ∧
    exec (.ldST x) s = .next { s with
      st := { value := s.readReg x, stamp := s.inputs.timeExec }
      pc := s.pc + 2
      events := s.events ++ [.clockSample] }

/-- A timer's remaining value is its value less the whole 60 Hz ticks elapsed since its stamp, and not below 0; it
never increases (the rounding down is the spec's own choice D5). -/
def Obligations.RemainingDecaysAtSixtyHertz : Prop :=
  ∀ (T : Timer) (t t' : Time), T.stamp ≤ t → t ≤ t' →
    ((T.remaining t).toNat : Int) = max 0 ((T.value.toNat : Int) - ⌊(t - T.stamp) * 60⌋) ∧
    (T.remaining t').toNat ≤ (T.remaining t).toNat

/-! ## Whole-machine rules and frames -/

/-- Only 2NNN and 00EE touch the call stack. -/
def Obligations.StackTouchedOnlyByCallAndReturn : Prop :=
  ∀ (i : Instr) (s t : State), exec i s = .next t → i ≠ .ret → (∀ nnn, i ≠ .call nnn) → t.stack = s.stack

/-- Only 00E0 and DXYN change the framebuffer. -/
def Obligations.FramebufferTouchedOnlyByClearAndDraw : Prop :=
  ∀ (i : Instr) (s t : State), exec i s = .next t → i ≠ .cls → (∀ x y n, i ≠ .drw x y n) → t.fb = s.fb

/-- Only FX15 changes the delay timer and only FX18 the sound timer, and no instruction changes the model's own
inputs. -/
def Obligations.TimersTouchedOnlyBySets : Prop :=
  ∀ (i : Instr) (s t : State), exec i s = .next t →
    ((∀ x, i ≠ .ldDT x) → t.dt = s.dt) ∧ ((∀ x, i ≠ .ldST x) → t.st = s.st) ∧
    t.inputs = s.inputs ∧ t.draws = s.draws

/-- No instruction changes a byte of memory but FX33 and FX55, and these only in the run they store from I on. -/
def Obligations.MemoryChangedOnlyInStoredRun : Prop :=
  ∀ (i : Instr) (s t : State) (a : Nat), exec i s = .next t →
    a < s.i.toNat ∨ s.i.toNat + i.storedBytes ≤ a → t.mem.read a = s.mem.read a

/-- Only ANNN, FX1E and FX29 write I, and of these only FX1E can take it above 4095. -/
def Obligations.IndexAboveMemoryOnlyByAdd : Prop :=
  ∀ (i : Instr) (s t : State), exec i s = .next t →
    ((∀ nnn, i ≠ .ldI nnn) → (∀ x, i ≠ .addI x) → (∀ x, i ≠ .ldF x) → t.i = s.i) ∧
    ((∀ x, i ≠ .addI x) → s.i.toNat ≤ 4095 → t.i.toNat ≤ 4095)

/-- No instruction changes a general register but those the table of R13 names for it: VF is written as a side effect
by 8XY4 to 8XY7, 8XYE and DXYN only. -/
def Obligations.RegistersOutsideTableKept : Prop :=
  ∀ (i : Instr) (s t : State) (k : Reg), exec i s = .next t → ¬ i.writesReg k → t.readReg k = s.readReg k

/-- How each instruction leaves PC when it does not fault: the table of R19. -/
def Obligations.PcAfterInstruction : Prop :=
  ∀ (i : Instr) (s t : State), s.fault = none → exec i s = .next t → t.fault = none →
    match i with
    | .jp nnn => t.pc.toNat = nnn.toNat
    | .call nnn => t.pc.toNat = nnn.toNat ∧ t.stack = (s.pc + 2) :: s.stack
    | .jpV0 nnn => t.pc.toNat = nnn.toNat + (s.readReg 0).toNat
    | .ret => s.stack = t.pc :: t.stack
    | .seImm x nn => t.pc = if s.readReg x = nn then s.pc + 4 else s.pc + 2
    | .sneImm x nn => t.pc = if s.readReg x = nn then s.pc + 2 else s.pc + 4
    | .seReg x y => t.pc = if s.readReg x = s.readReg y then s.pc + 4 else s.pc + 2
    | .sneReg x y => t.pc = if s.readReg x = s.readReg y then s.pc + 2 else s.pc + 4
    | .skp x => t.pc = if s.inputs.keyPressed (s.readReg x) = true then s.pc + 4 else s.pc + 2
    | .sknp x => t.pc = if s.inputs.keyPressed (s.readReg x) = true then s.pc + 2 else s.pc + 4
    | .ldVxK _ => ((∃ k, s.inputs.keys.get k = true) → t.pc = s.pc + 2) ∧
        ((∀ k, s.inputs.keys.get k = false) → t.pc = s.pc)
    | _ => t.pc = s.pc + 2

/-- Which instructions latch a fault, and exactly when: 00EE on an empty stack, 2NNN at depth 16, and a data access
that leaves the memory; no other instruction can fault. -/
def Obligations.FaultsExactlyWhenListed : Prop :=
  ∀ (i : Instr) (s t : State), s.fault = none → exec i s = .next t →
    (t.fault ≠ none ↔
      (i = .ret ∧ s.stack = []) ∨ ((∃ nnn, i = .call nnn) ∧ 16 ≤ s.stack.length) ∨
      (0 < i.dataBytes ∧ 4096 < s.i.toNat + i.dataBytes))

/-- A finished program stays finished: each further step leaves the machine as it is. -/
def Obligations.FinishedRunStays : Prop :=
  ∀ s : State, s.Finished →
    ∃ t, step s = .next t ∧ t = { s with inputs := t.inputs, draws := t.draws, events := t.events } ∧ t.Finished

/-! ## The invariant -/

/-- The invariant holds after reset.  The clock's origin and the timer stamps its clauses on time speak of are the
model's choices (log 5, log 7). -/
def Obligations.ResetMeetsInvariant : Prop := State.reset.Inv

/-- Every step keeps the invariant, from every state that meets it: memory stays in canonical form within 4096
bytes, the stack within 16 entries, PC and the stacked addresses within what a rule can write, and no timer is set in
the future of a monotone clock.  The clock's origin is the model's choice (log 5). -/
def Obligations.StepKeepsInvariant : Prop :=
  ∀ s t : State, s.Inv → step s = .next t → t.Inv

/-- Every state the host's moves lead to, loads and resets included, meets the invariant.  The clock's origin and the
timer stamps after reset, on which the clauses on time rest, are the model's choices (log 5, log 7); that a load
precedes the first step is the spec's own choice D17 (log 17). -/
def Obligations.ReachableStatesMeetInvariant : Prop :=
  ∀ s : State, Reachable s → s.Inv
end

