-- ==== Sys2Proof/Laws/Decode.lean ====
section
/-! SUPPORT. The fields of a word put together from fields (30_encoding.md R61), for proofs about `encode`. -/

namespace Sys2Proof

@[simp] theorem nibble_toFin (x : Fin 16) : (nibble x).toFin = x := rfl

/-- The fields of a `kNNN` word. -/
theorem extractFields_addr (k : BitVec 4) (nnn : Addr12) :
    (extractFields (highByte (k ++ nnn)) (lowByte (k ++ nnn))).n0 = k ∧
      (extractFields (highByte (k ++ nnn)) (lowByte (k ++ nnn))).address12 = nnn := by
  constructor <;> ext i hi <;> simp only [extractFields, highByte, lowByte, Fields.address12] <;> grind

/-- The fields of a `kXNN` word. -/
theorem extractFields_regImm (k x : BitVec 4) (nn : Byte) :
    (extractFields (highByte (k ++ x ++ nn)) (lowByte (k ++ x ++ nn))).n0 = k ∧
      (extractFields (highByte (k ++ x ++ nn)) (lowByte (k ++ x ++ nn))).n1 = x ∧
      (extractFields (highByte (k ++ x ++ nn)) (lowByte (k ++ x ++ nn))).immediate8 = nn := by
  refine ⟨?_, ?_, ?_⟩ <;> ext i hi <;>
    simp only [extractFields, highByte, lowByte, Fields.immediate8] <;> grind

/-- The fields of a `kXYN` word. -/
theorem extractFields_nibbles (k x y z : BitVec 4) :
    extractFields (highByte (k ++ x ++ y ++ z)) (lowByte (k ++ x ++ y ++ z)) =
      { n0 := k, n1 := x, n2 := y, n3 := z } := by
  simp only [Fields.mk.injEq, extractFields]
  refine ⟨?_, ?_, ?_, ?_⟩ <;> ext i hi <;> simp only [highByte, lowByte] <;> grind

/-- Every word is its four nibbles put together. -/
theorem word_of_fields (w : Word) :
    (extractFields (highByte w) (lowByte w)).n0 ++ (extractFields (highByte w) (lowByte w)).n1 ++
      (extractFields (highByte w) (lowByte w)).n2 ++ (extractFields (highByte w) (lowByte w)).n3 = w := by
  ext i hi
  simp only [extractFields, highByte, lowByte]
  grind

/-- A word whose dispatch answers an instruction decodes to it. -/
theorem decodeWord_of_dispatch {w : Word} {i : Instr}
    (h : dispatch (extractFields (highByte w) (lowByte w)) = some i) : decodeWord w = .ok i := by
  simp [decodeWord, decodePair, h]

/-- The two bytes of a word put together are the word (R43). -/
theorem highByte_append_lowByte (w : Word) : highByte w ++ lowByte w = w := by
  ext i hi
  simp only [highByte, lowByte]
  grind

@[simp] theorem highByte_append (h l : Byte) : highByte (h ++ l) = h := by
  ext i hi
  simp only [highByte]
  grind

@[simp] theorem lowByte_append (h l : Byte) : lowByte (h ++ l) = l := by
  ext i hi
  simp only [lowByte]
  grind

end Sys2Proof
end

