-- ==== Sys2Proof/Laws/State.lean ====
section
/-! SUPPORT. One lemma per field of State per named update, so that no later proof unfolds a record update. -/

namespace Sys2Proof.Machine

variable (s : State)

/-! ### setPc -/

@[simp] theorem State.setPc_v (w : Word) : (s.setPc w).v = s.v := rfl
@[simp] theorem State.setPc_i (w : Word) : (s.setPc w).i = s.i := rfl
@[simp] theorem State.setPc_pc (w : Word) : (s.setPc w).pc = w := rfl
@[simp] theorem State.setPc_stack (w : Word) : (s.setPc w).stack = s.stack := rfl
@[simp] theorem State.setPc_dt (w : Word) : (s.setPc w).dt = s.dt := rfl
@[simp] theorem State.setPc_st (w : Word) : (s.setPc w).st = s.st := rfl
@[simp] theorem State.setPc_fb (w : Word) : (s.setPc w).fb = s.fb := rfl
@[simp] theorem State.setPc_mem (w : Word) : (s.setPc w).mem = s.mem := rfl
@[simp] theorem State.setPc_fault (w : Word) : (s.setPc w).fault = s.fault := rfl
@[simp] theorem State.setPc_inputs (w : Word) : (s.setPc w).inputs = s.inputs := rfl
@[simp] theorem State.setPc_draws (w : Word) : (s.setPc w).draws = s.draws := rfl
@[simp] theorem State.setPc_events (w : Word) : (s.setPc w).events = s.events := rfl

/-! ### fallThrough -/

@[simp] theorem State.fallThrough_v : (s.fallThrough).v = s.v := rfl
@[simp] theorem State.fallThrough_i : (s.fallThrough).i = s.i := rfl
@[simp] theorem State.fallThrough_pc : (s.fallThrough).pc = s.pc + 2 := rfl
@[simp] theorem State.fallThrough_stack : (s.fallThrough).stack = s.stack := rfl
@[simp] theorem State.fallThrough_dt : (s.fallThrough).dt = s.dt := rfl
@[simp] theorem State.fallThrough_st : (s.fallThrough).st = s.st := rfl
@[simp] theorem State.fallThrough_fb : (s.fallThrough).fb = s.fb := rfl
@[simp] theorem State.fallThrough_mem : (s.fallThrough).mem = s.mem := rfl
@[simp] theorem State.fallThrough_fault : (s.fallThrough).fault = s.fault := rfl
@[simp] theorem State.fallThrough_inputs : (s.fallThrough).inputs = s.inputs := rfl
@[simp] theorem State.fallThrough_draws : (s.fallThrough).draws = s.draws := rfl
@[simp] theorem State.fallThrough_events : (s.fallThrough).events = s.events := rfl

/-! ### skipIf -/

@[simp] theorem State.skipIf_v (c : Bool) : (s.skipIf c).v = s.v := rfl
@[simp] theorem State.skipIf_i (c : Bool) : (s.skipIf c).i = s.i := rfl
@[simp] theorem State.skipIf_pc (c : Bool) : (s.skipIf c).pc = if c then s.pc + 4 else s.pc + 2 := rfl
@[simp] theorem State.skipIf_stack (c : Bool) : (s.skipIf c).stack = s.stack := rfl
@[simp] theorem State.skipIf_dt (c : Bool) : (s.skipIf c).dt = s.dt := rfl
@[simp] theorem State.skipIf_st (c : Bool) : (s.skipIf c).st = s.st := rfl
@[simp] theorem State.skipIf_fb (c : Bool) : (s.skipIf c).fb = s.fb := rfl
@[simp] theorem State.skipIf_mem (c : Bool) : (s.skipIf c).mem = s.mem := rfl
@[simp] theorem State.skipIf_fault (c : Bool) : (s.skipIf c).fault = s.fault := rfl
@[simp] theorem State.skipIf_inputs (c : Bool) : (s.skipIf c).inputs = s.inputs := rfl
@[simp] theorem State.skipIf_draws (c : Bool) : (s.skipIf c).draws = s.draws := rfl
@[simp] theorem State.skipIf_events (c : Bool) : (s.skipIf c).events = s.events := rfl

/-! ### writeReg -/

@[simp] theorem State.writeReg_v (x : Reg) (b : Byte) : (s.writeReg x b).v = s.v.set x b := rfl
@[simp] theorem State.writeReg_i (x : Reg) (b : Byte) : (s.writeReg x b).i = s.i := rfl
@[simp] theorem State.writeReg_pc (x : Reg) (b : Byte) : (s.writeReg x b).pc = s.pc := rfl
@[simp] theorem State.writeReg_stack (x : Reg) (b : Byte) : (s.writeReg x b).stack = s.stack := rfl
@[simp] theorem State.writeReg_dt (x : Reg) (b : Byte) : (s.writeReg x b).dt = s.dt := rfl
@[simp] theorem State.writeReg_st (x : Reg) (b : Byte) : (s.writeReg x b).st = s.st := rfl
@[simp] theorem State.writeReg_fb (x : Reg) (b : Byte) : (s.writeReg x b).fb = s.fb := rfl
@[simp] theorem State.writeReg_mem (x : Reg) (b : Byte) : (s.writeReg x b).mem = s.mem := rfl
@[simp] theorem State.writeReg_fault (x : Reg) (b : Byte) : (s.writeReg x b).fault = s.fault := rfl
@[simp] theorem State.writeReg_inputs (x : Reg) (b : Byte) : (s.writeReg x b).inputs = s.inputs := rfl
@[simp] theorem State.writeReg_draws (x : Reg) (b : Byte) : (s.writeReg x b).draws = s.draws := rfl
@[simp] theorem State.writeReg_events (x : Reg) (b : Byte) : (s.writeReg x b).events = s.events := rfl

/-! ### setFlag -/

@[simp] theorem State.setFlag_v (f : Bool) : (s.setFlag f).v = s.v.set regF (flagByte f) := rfl
@[simp] theorem State.setFlag_i (f : Bool) : (s.setFlag f).i = s.i := rfl
@[simp] theorem State.setFlag_pc (f : Bool) : (s.setFlag f).pc = s.pc := rfl
@[simp] theorem State.setFlag_stack (f : Bool) : (s.setFlag f).stack = s.stack := rfl
@[simp] theorem State.setFlag_dt (f : Bool) : (s.setFlag f).dt = s.dt := rfl
@[simp] theorem State.setFlag_st (f : Bool) : (s.setFlag f).st = s.st := rfl
@[simp] theorem State.setFlag_fb (f : Bool) : (s.setFlag f).fb = s.fb := rfl
@[simp] theorem State.setFlag_mem (f : Bool) : (s.setFlag f).mem = s.mem := rfl
@[simp] theorem State.setFlag_fault (f : Bool) : (s.setFlag f).fault = s.fault := rfl
@[simp] theorem State.setFlag_inputs (f : Bool) : (s.setFlag f).inputs = s.inputs := rfl
@[simp] theorem State.setFlag_draws (f : Bool) : (s.setFlag f).draws = s.draws := rfl
@[simp] theorem State.setFlag_events (f : Bool) : (s.setFlag f).events = s.events := rfl

/-! ### writeI -/

@[simp] theorem State.writeI_v (w : Word) : (s.writeI w).v = s.v := rfl
@[simp] theorem State.writeI_i (w : Word) : (s.writeI w).i = w := rfl
@[simp] theorem State.writeI_pc (w : Word) : (s.writeI w).pc = s.pc := rfl
@[simp] theorem State.writeI_stack (w : Word) : (s.writeI w).stack = s.stack := rfl
@[simp] theorem State.writeI_dt (w : Word) : (s.writeI w).dt = s.dt := rfl
@[simp] theorem State.writeI_st (w : Word) : (s.writeI w).st = s.st := rfl
@[simp] theorem State.writeI_fb (w : Word) : (s.writeI w).fb = s.fb := rfl
@[simp] theorem State.writeI_mem (w : Word) : (s.writeI w).mem = s.mem := rfl
@[simp] theorem State.writeI_fault (w : Word) : (s.writeI w).fault = s.fault := rfl
@[simp] theorem State.writeI_inputs (w : Word) : (s.writeI w).inputs = s.inputs := rfl
@[simp] theorem State.writeI_draws (w : Word) : (s.writeI w).draws = s.draws := rfl
@[simp] theorem State.writeI_events (w : Word) : (s.writeI w).events = s.events := rfl

/-! ### raise -/

@[simp] theorem State.raise_v (f : Fault) : (s.raise f).v = s.v := rfl
@[simp] theorem State.raise_i (f : Fault) : (s.raise f).i = s.i := rfl
@[simp] theorem State.raise_pc (f : Fault) : (s.raise f).pc = s.pc := rfl
@[simp] theorem State.raise_stack (f : Fault) : (s.raise f).stack = s.stack := rfl
@[simp] theorem State.raise_dt (f : Fault) : (s.raise f).dt = s.dt := rfl
@[simp] theorem State.raise_st (f : Fault) : (s.raise f).st = s.st := rfl
@[simp] theorem State.raise_fb (f : Fault) : (s.raise f).fb = s.fb := rfl
@[simp] theorem State.raise_mem (f : Fault) : (s.raise f).mem = s.mem := rfl
@[simp] theorem State.raise_fault (f : Fault) : (s.raise f).fault = some f := rfl
@[simp] theorem State.raise_inputs (f : Fault) : (s.raise f).inputs = s.inputs := rfl
@[simp] theorem State.raise_draws (f : Fault) : (s.raise f).draws = s.draws := rfl
@[simp] theorem State.raise_events (f : Fault) : (s.raise f).events = s.events := rfl

/-! ### setDT -/

@[simp] theorem State.setDT_v (b : Byte) (t : Time) : (s.setDT b t).v = s.v := rfl
@[simp] theorem State.setDT_i (b : Byte) (t : Time) : (s.setDT b t).i = s.i := rfl
@[simp] theorem State.setDT_pc (b : Byte) (t : Time) : (s.setDT b t).pc = s.pc := rfl
@[simp] theorem State.setDT_stack (b : Byte) (t : Time) : (s.setDT b t).stack = s.stack := rfl
@[simp] theorem State.setDT_dt (b : Byte) (t : Time) : (s.setDT b t).dt = { value := b, stamp := t } := rfl
@[simp] theorem State.setDT_st (b : Byte) (t : Time) : (s.setDT b t).st = s.st := rfl
@[simp] theorem State.setDT_fb (b : Byte) (t : Time) : (s.setDT b t).fb = s.fb := rfl
@[simp] theorem State.setDT_mem (b : Byte) (t : Time) : (s.setDT b t).mem = s.mem := rfl
@[simp] theorem State.setDT_fault (b : Byte) (t : Time) : (s.setDT b t).fault = s.fault := rfl
@[simp] theorem State.setDT_inputs (b : Byte) (t : Time) : (s.setDT b t).inputs = s.inputs := rfl
@[simp] theorem State.setDT_draws (b : Byte) (t : Time) : (s.setDT b t).draws = s.draws := rfl
@[simp] theorem State.setDT_events (b : Byte) (t : Time) : (s.setDT b t).events = s.events := rfl

/-! ### setST -/

@[simp] theorem State.setST_v (b : Byte) (t : Time) : (s.setST b t).v = s.v := rfl
@[simp] theorem State.setST_i (b : Byte) (t : Time) : (s.setST b t).i = s.i := rfl
@[simp] theorem State.setST_pc (b : Byte) (t : Time) : (s.setST b t).pc = s.pc := rfl
@[simp] theorem State.setST_stack (b : Byte) (t : Time) : (s.setST b t).stack = s.stack := rfl
@[simp] theorem State.setST_dt (b : Byte) (t : Time) : (s.setST b t).dt = s.dt := rfl
@[simp] theorem State.setST_st (b : Byte) (t : Time) : (s.setST b t).st = { value := b, stamp := t } := rfl
@[simp] theorem State.setST_fb (b : Byte) (t : Time) : (s.setST b t).fb = s.fb := rfl
@[simp] theorem State.setST_mem (b : Byte) (t : Time) : (s.setST b t).mem = s.mem := rfl
@[simp] theorem State.setST_fault (b : Byte) (t : Time) : (s.setST b t).fault = s.fault := rfl
@[simp] theorem State.setST_inputs (b : Byte) (t : Time) : (s.setST b t).inputs = s.inputs := rfl
@[simp] theorem State.setST_draws (b : Byte) (t : Time) : (s.setST b t).draws = s.draws := rfl
@[simp] theorem State.setST_events (b : Byte) (t : Time) : (s.setST b t).events = s.events := rfl

/-! ### emit -/

@[simp] theorem State.emit_v (es : List Event) : (s.emit es).v = s.v := rfl
@[simp] theorem State.emit_i (es : List Event) : (s.emit es).i = s.i := rfl
@[simp] theorem State.emit_pc (es : List Event) : (s.emit es).pc = s.pc := rfl
@[simp] theorem State.emit_stack (es : List Event) : (s.emit es).stack = s.stack := rfl
@[simp] theorem State.emit_dt (es : List Event) : (s.emit es).dt = s.dt := rfl
@[simp] theorem State.emit_st (es : List Event) : (s.emit es).st = s.st := rfl
@[simp] theorem State.emit_fb (es : List Event) : (s.emit es).fb = s.fb := rfl
@[simp] theorem State.emit_mem (es : List Event) : (s.emit es).mem = s.mem := rfl
@[simp] theorem State.emit_fault (es : List Event) : (s.emit es).fault = s.fault := rfl
@[simp] theorem State.emit_inputs (es : List Event) : (s.emit es).inputs = s.inputs := rfl
@[simp] theorem State.emit_draws (es : List Event) : (s.emit es).draws = s.draws := rfl
@[simp] theorem State.emit_events (es : List Event) : (s.emit es).events = s.events ++ es := rfl

/-! ### afterFetch -/

@[simp] theorem State.afterFetch_v : (s.afterFetch).v = s.v := rfl
@[simp] theorem State.afterFetch_i : (s.afterFetch).i = s.i := rfl
@[simp] theorem State.afterFetch_pc : (s.afterFetch).pc = s.pc := rfl
@[simp] theorem State.afterFetch_stack : (s.afterFetch).stack = s.stack := rfl
@[simp] theorem State.afterFetch_dt : (s.afterFetch).dt = s.dt := rfl
@[simp] theorem State.afterFetch_st : (s.afterFetch).st = s.st := rfl
@[simp] theorem State.afterFetch_fb : (s.afterFetch).fb = s.fb := rfl
@[simp] theorem State.afterFetch_mem : (s.afterFetch).mem = s.mem := rfl
@[simp] theorem State.afterFetch_fault : (s.afterFetch).fault = s.fault := rfl
@[simp] theorem State.afterFetch_inputs : (s.afterFetch).inputs = s.inputs := rfl
@[simp] theorem State.afterFetch_draws : (s.afterFetch).draws = s.draws := rfl
@[simp] theorem State.afterFetch_events : (s.afterFetch).events = [.memRead s.pc.toNat, .memRead (s.pc.toNat + 1)] ++ s.audioEvents := rfl

/-! ### nextInputs -/

@[simp] theorem State.nextInputs_v : (s.nextInputs).v = s.v := rfl
@[simp] theorem State.nextInputs_i : (s.nextInputs).i = s.i := rfl
@[simp] theorem State.nextInputs_pc : (s.nextInputs).pc = s.pc := rfl
@[simp] theorem State.nextInputs_stack : (s.nextInputs).stack = s.stack := rfl
@[simp] theorem State.nextInputs_dt : (s.nextInputs).dt = s.dt := rfl
@[simp] theorem State.nextInputs_st : (s.nextInputs).st = s.st := rfl
@[simp] theorem State.nextInputs_fb : (s.nextInputs).fb = s.fb := rfl
@[simp] theorem State.nextInputs_mem : (s.nextInputs).mem = s.mem := rfl
@[simp] theorem State.nextInputs_fault : (s.nextInputs).fault = s.fault := rfl
@[simp] theorem State.nextInputs_inputs : (s.nextInputs).inputs = Inputs.draw (s.draws + 1) s.inputs.timeExec := rfl
@[simp] theorem State.nextInputs_draws : (s.nextInputs).draws = s.draws + 1 := rfl
@[simp] theorem State.nextInputs_events : (s.nextInputs).events = s.events := rfl

/-! ### dataFault -/

@[simp] theorem State.dataFault_v (i : Instr) (a : Nat) : (s.dataFault i a).v = s.v := rfl
@[simp] theorem State.dataFault_i (i : Instr) (a : Nat) : (s.dataFault i a).i = s.i := rfl
@[simp] theorem State.dataFault_stack (i : Instr) (a : Nat) : (s.dataFault i a).stack = s.stack := rfl
@[simp] theorem State.dataFault_dt (i : Instr) (a : Nat) : (s.dataFault i a).dt = s.dt := rfl
@[simp] theorem State.dataFault_st (i : Instr) (a : Nat) : (s.dataFault i a).st = s.st := rfl
@[simp] theorem State.dataFault_fb (i : Instr) (a : Nat) : (s.dataFault i a).fb = s.fb := rfl
@[simp] theorem State.dataFault_mem (i : Instr) (a : Nat) : (s.dataFault i a).mem = s.mem := rfl
@[simp] theorem State.dataFault_inputs (i : Instr) (a : Nat) : (s.dataFault i a).inputs = s.inputs := rfl
@[simp] theorem State.dataFault_draws (i : Instr) (a : Nat) : (s.dataFault i a).draws = s.draws := rfl
@[simp] theorem State.dataFault_events (i : Instr) (a : Nat) : (s.dataFault i a).events = s.events := rfl
@[simp] theorem State.dataFault_pc (i : Instr) (a : Nat) : (s.dataFault i a).pc = s.faultPc := rfl
@[simp] theorem State.dataFault_fault (i : Instr) (a : Nat) : (s.dataFault i a).fault =
    some (.memoryBoundsError s.pc (some (encode i)) (BitVec.ofNat 16 a)) := rfl
@[simp] theorem State.readReg_dataFault (k : Reg) (i : Instr) (a : Nat) :
    (s.dataFault i a).readReg k = s.readReg k := rfl

/-! ### Register reads through the updates -/

/-- A register reads back what was written to it, and no other register changes. -/
@[simp] theorem State.readReg_writeReg (x k : Reg) (b : Byte) :
    (s.writeReg x b).readReg k = if k = x then b else s.readReg k := by
  simp only [State.readReg, State.writeReg, Vector.get_eq_getElem, Vector.getElem_set, Fin.ext_iff]
  split <;> split <;> first | rfl | omega

@[simp] theorem State.readReg_setFlag (k : Reg) (f : Bool) :
    (s.setFlag f).readReg k = if k = regF then flagByte f else s.readReg k :=
  State.readReg_writeReg s regF k (flagByte f)

@[simp] theorem State.readReg_setPc (k : Reg) (w : Word) : (s.setPc w).readReg k = s.readReg k := rfl
@[simp] theorem State.readReg_fallThrough (k : Reg) : s.fallThrough.readReg k = s.readReg k := rfl
@[simp] theorem State.readReg_skipIf (k : Reg) (c : Bool) : (s.skipIf c).readReg k = s.readReg k := rfl
@[simp] theorem State.readReg_writeI (k : Reg) (w : Word) : (s.writeI w).readReg k = s.readReg k := rfl
@[simp] theorem State.readReg_raise (k : Reg) (f : Fault) : (s.raise f).readReg k = s.readReg k := rfl
@[simp] theorem State.readReg_emit (k : Reg) (es : List Event) : (s.emit es).readReg k = s.readReg k := rfl
@[simp] theorem State.readReg_setDT (k : Reg) (b : Byte) (t : Time) : (s.setDT b t).readReg k = s.readReg k := rfl
@[simp] theorem State.readReg_setST (k : Reg) (b : Byte) (t : Time) : (s.setST b t).readReg k = s.readReg k := rfl
@[simp] theorem State.readReg_afterFetch (k : Reg) : s.afterFetch.readReg k = s.readReg k := rfl
@[simp] theorem State.readReg_nextInputs (k : Reg) : s.nextInputs.readReg k = s.readReg k := rfl

/-- Two states with the same registers by reading have the same register file. -/
theorem State.v_ext {s t : State} (h : ∀ k, s.readReg k = t.readReg k) : s.v = t.v := by
  apply Vector.ext
  intro k hk
  exact h ⟨k, hk⟩

end Sys2Proof.Machine
end

