-- ==== Sys2Proof/Laws/Display.lean ====
section
/-! SUPPORT. Framebuffer reads after writes, and what one pixel and one sprite row of a blit do
(44_display.md R134). -/

namespace Sys2Proof.Machine

@[simp] theorem Framebuffer.pixel_blank (x : Fin 64) (y : Fin 32) : Framebuffer.blank.pixel x y = false := by
  simp [Framebuffer.pixel, Framebuffer.blank, Vector.get_eq_getElem]

/-- A pixel reads back what was written to it, and no other pixel changes. -/
@[simp] theorem Framebuffer.pixel_setPixel (fb : Framebuffer) (x x' : Fin 64) (y y' : Fin 32) (b : Bool) :
    (fb.setPixel x y b).pixel x' y' = if x' = x ∧ y' = y then b else fb.pixel x' y' := by
  simp only [Framebuffer.pixel, Framebuffer.setPixel, Vector.get_eq_getElem, Vector.getElem_set, Fin.ext_iff]
  by_cases hy : (y : Nat) = y'
  · by_cases hx : (x : Nat) = x'
    · simp [hx, hy]
    · simp [hx, hy, Ne.symm hx]
  · simp [hy, Ne.symm hy]

/-- Two framebuffers with the same pixels are the same. -/
theorem Framebuffer.ext_pixel {fb fb' : Framebuffer} (h : ∀ x y, fb.pixel x y = fb'.pixel x y) : fb = fb' := by
  apply Vector.ext
  intro y hy
  apply Vector.ext
  intro x hx
  exact h ⟨x, hx⟩ ⟨y, hy⟩

/-- One pixel of a blit: it is XORed, the others are kept (R134). -/
@[simp] theorem drawPixel_pixel (x x' : Fin 64) (y y' : Fin 32) (bit : Bool) (b : Blit) :
    (drawPixel x y bit b).fb.pixel x' y' = (b.fb.pixel x' y' ^^ (decide (x' = x ∧ y' = y) && bit)) := by
  by_cases h : x' = x ∧ y' = y
  · obtain ⟨rfl, rfl⟩ := h
    simp [drawPixel]
  · simp [drawPixel, h]

/-- One pixel of a blit collides when it was true and the sprite bit is set (R134). -/
@[simp] theorem drawPixel_collision (x : Fin 64) (y : Fin 32) (bit : Bool) (b : Blit) :
    (drawPixel x y bit b).collision = (b.collision || (b.fb.pixel x y && bit)) := by
  cases hb : b.fb.pixel x y <;> cases bit <;> simp [drawPixel, hb]

/-- One sprite row of a blit toggles exactly the pixels its set bits land on (R134). -/
theorem drawColumns_pixel_ne (ox : Nat) (y y' : Fin 32) (x' : Fin 64) (row : Byte) {c : Nat} (hc : c ≤ 8) (b : Blit) :
    (drawColumns ox y row c b).fb.pixel x' y' ≠ b.fb.pixel x' y' ↔
      y' = y ∧ ∃ k, k < c ∧ row.getLsbD k = true ∧ x'.val = (ox + (7 - k)) % 64 := by
  induction c generalizing b with
  | zero => simp [drawColumns]
  | succ c ih =>
    rw [drawColumns]
    have h := ih (by omega) (drawPixel (Fin.ofNat 64 (ox + (7 - c))) y (row.getLsbD c) b)
    rw [drawPixel_pixel] at h
    have hx : x' = Fin.ofNat 64 (ox + (7 - c)) ↔ x'.val = (ox + (7 - c)) % 64 := by
      simp [Fin.ext_iff]
    by_cases hy : y' = y
    · by_cases hp : x'.val = (ox + (7 - c)) % 64
      · have hno : ¬ ∃ k, k < c ∧ row.getLsbD k = true ∧ x'.val = (ox + (7 - k)) % 64 := by
          rintro ⟨k, hk, -, he⟩
          omega
        have he : (∃ k, k < c + 1 ∧ row.getLsbD k = true ∧ x'.val = (ox + (7 - k)) % 64) ↔ row.getLsbD c = true := by
          constructor
          · rintro ⟨k, hk, hb, hx'⟩
            rcases Nat.lt_succ_iff_lt_or_eq.1 hk with hk | rfl
            · exact absurd ⟨k, hk, hb, hx'⟩ hno
            · exact hb
          · exact fun hb => ⟨c, by omega, hb, hp⟩
        rw [he]
        rw [decide_eq_true ⟨hx.2 hp, hy⟩, Bool.true_and] at h
        have h' := not_not.1 (mt h.1 fun h => hno h.2)
        rw [h', hy]
        cases row.getLsbD c <;> cases b.fb.pixel x' y <;> simp
      · have he : (∃ k, k < c + 1 ∧ row.getLsbD k = true ∧ x'.val = (ox + (7 - k)) % 64) ↔
            ∃ k, k < c ∧ row.getLsbD k = true ∧ x'.val = (ox + (7 - k)) % 64 := by
          constructor
          · rintro ⟨k, hk, hb, hx'⟩
            rcases Nat.lt_succ_iff_lt_or_eq.1 hk with hk | rfl
            · exact ⟨k, hk, hb, hx'⟩
            · exact absurd hx' hp
          · rintro ⟨k, hk, hb⟩
            exact ⟨k, by omega, hb⟩
        rw [he]
        simpa only [hx, hp, false_and, decide_false, Bool.false_and, Bool.xor_false] using h
    · simpa [hy] using h

/-- One sprite row of a blit collides exactly when a set bit lands on a pixel that was true (R134). -/
theorem drawColumns_collision (ox : Nat) (y : Fin 32) (row : Byte) {c : Nat} (hc : c ≤ 8) (b : Blit) :
    (drawColumns ox y row c b).collision = true ↔ b.collision = true ∨
      ∃ k, k < c ∧ row.getLsbD k = true ∧ b.fb.pixel (Fin.ofNat 64 (ox + (7 - k))) y = true := by
  induction c generalizing b with
  | zero => simp [drawColumns]
  | succ c ih =>
    rw [drawColumns, ih (by omega), drawPixel_collision]
    have hother : ∀ k, k < c → (drawPixel (Fin.ofNat 64 (ox + (7 - c))) y (row.getLsbD c) b).fb.pixel
        (Fin.ofNat 64 (ox + (7 - k))) y = b.fb.pixel (Fin.ofNat 64 (ox + (7 - k))) y := by
      intro k hk
      have : Fin.ofNat 64 (ox + (7 - k)) ≠ Fin.ofNat 64 (ox + (7 - c)) := by
        simp [Fin.ext_iff]
        omega
      rw [drawPixel_pixel, decide_eq_false (fun h => this h.1), Bool.false_and, Bool.xor_false]
    simp only [Bool.or_eq_true, Bool.and_eq_true]
    constructor
    · rintro ((h | ⟨hp, hb⟩) | ⟨k, hk, hb, hp⟩)
      · exact .inl h
      · exact .inr ⟨c, by omega, hb, hp⟩
      · exact .inr ⟨k, by omega, hb, (hother k hk) ▸ hp⟩
    · rintro (h | ⟨k, hk, hb, hp⟩)
      · exact .inl (.inl h)
      · rcases Nat.lt_succ_iff_lt_or_eq.1 hk with hk | rfl
        · exact .inr ⟨k, hk, hb, (hother k hk).symm ▸ hp⟩
        · exact .inl (.inr ⟨hp, hb⟩)

@[simp] theorem drawRows_nil (ox oy : Nat) (b : Blit) : drawRows ox oy [] b = b := rfl

@[simp] theorem drawRows_cons (ox oy : Nat) (row : Byte) (rows : List Byte) (b : Blit) :
    drawRows ox oy (row :: rows) b =
      drawRows ox (oy + 1) rows (drawColumns ox (Fin.ofNat 32 oy) row 8 b) := rfl

/-- One pixel after a DXYN that faults (R162). -/
theorem State.faultFramebuffer_pixel (s : State) (ox oy : Byte) (n : RowCount) (x : Fin 64) (y : Fin 32) :
    (s.faultFramebuffer ox oy n).pixel x y =
      (s.fb.pixel x y ^^
        (spriteColumn ox x < 8 && spriteRow oy y < n.val && s.landed (.pixel x y) &&
          (if s.dataBase + spriteRow oy y < Config.memSize then
            (s.mem.read (s.dataBase + spriteRow oy y)).getLsbD (7 - spriteColumn ox x)
          else true))) := by
  simp only [State.faultFramebuffer, Framebuffer.pixel, Vector.get_eq_getElem, Vector.getElem_ofFn, Fin.eta]

end Sys2Proof.Machine
end

