-- ==== Sys2Proof/Laws/Memory.lean ====
section
/-! SUPPORT. Memory: read after write, and every memory operation keeps the canonical form; what the runs of bus
accesses of 20_memory.md R54 answer. -/

namespace Sys2Proof.Machine

theorem Memory.wf_nil : Memory.wf [] := ⟨List.Pairwise.nil, by simp⟩

theorem Memory.wf_cons {a : Nat} {c : Byte} {m : Memory} :
    Memory.wf ((a, c) :: m) ↔
      (∀ e ∈ m, a < e.1) ∧ a < Config.memSize ∧ c ≠ Memory.unlisted ∧ Memory.wf m := by
  simp only [Memory.wf, List.pairwise_cons, List.forall_mem_cons]
  tauto

/-- An address below every listed one is unlisted. -/
theorem Memory.read_of_lt {m : Memory} {k : Nat} (h : ∀ e ∈ m, k < e.1) : m.read k = Memory.unlisted := by
  induction m with
  | nil => rfl
  | cons e m ih =>
    have h1 := h e (by simp)
    obtain ⟨a, c⟩ := e
    simp only [Memory.read]
    rw [if_neg (by simpa using Nat.ne_of_gt h1), ih fun e he => h e (by simp [he])]

/-- A write leaves every other address alone (R42). -/
@[simp] theorem Memory.read_write_other (m : Memory) {k j : Nat} (b : Byte) (h : j ≠ k) :
    (m.write k b).read j = m.read j := by
  induction m with
  | nil => unfold Memory.write; split <;> simp [Memory.read, h.symm]
  | cons e m ih =>
    obtain ⟨a, c⟩ := e
    unfold Memory.write
    split_ifs with h1 h2 h3 h4
    · rfl
    · simp [Memory.read, h.symm]
    · subst h3; simp [Memory.read, h.symm]
    · subst h3; simp [Memory.read, h.symm]
    · simp only [Memory.read, ih]

/-- A read after a write to the same address gives the byte written (R46). -/
@[simp] theorem Memory.read_write_same {m : Memory} (hm : m.wf) (k : Nat) (b : Byte) :
    (m.write k b).read k = b := by
  induction m with
  | nil => unfold Memory.write; split <;> simp_all [Memory.read]
  | cons e m ih =>
    obtain ⟨a, c⟩ := e
    obtain ⟨hlt, -, -, hwf⟩ := Memory.wf_cons.1 hm
    unfold Memory.write
    split_ifs with h1 h2 h3 h4
    · rw [Memory.read_of_lt, h2]
      intro e he
      rcases List.mem_cons.1 he with rfl | he
      · exact h1
      · exact lt_trans h1 (hlt e he)
    · simp [Memory.read]
    · subst h3; rw [Memory.read_of_lt hlt, h4]
    · simp [Memory.read, h3]
    · rw [Memory.read, if_neg (by omega), ih hwf]

theorem Memory.mem_write {m : Memory} {k : Nat} {b : Byte} {e : Host.Cell} (h : e ∈ m.write k b) :
    e = (k, b) ∨ e ∈ m := by
  induction m with
  | nil =>
    unfold Memory.write at h
    split at h <;> simp_all
  | cons d m ih =>
    obtain ⟨a, c⟩ := d
    unfold Memory.write at h
    split_ifs at h with h1 h2 h3 h4
    · exact .inr h
    · rcases List.mem_cons.1 h with h | h
      · exact .inl h
      · exact .inr h
    · exact .inr (List.mem_cons_of_mem _ h)
    · rcases List.mem_cons.1 h with h | h
      · exact .inl (by rw [h, h3])
      · exact .inr (List.mem_cons_of_mem _ h)
    · rcases List.mem_cons.1 h with h | h
      · exact .inr (by simp [h])
      · rcases ih h with h | h
        · exact .inl h
        · exact .inr (List.mem_cons_of_mem _ h)

/-- A write keeps the canonical form. -/
theorem Memory.wf_write {m : Memory} (hm : m.wf) {k : Nat} (hk : k < Config.memSize) (b : Byte) :
    (m.write k b).wf := by
  induction m with
  | nil =>
    unfold Memory.write
    split_ifs with h
    · exact hm
    · exact Memory.wf_cons.2 ⟨by simp, hk, h, hm⟩
  | cons e m ih =>
    obtain ⟨a, c⟩ := e
    obtain ⟨hlt, ha, hc, hwf⟩ := Memory.wf_cons.1 hm
    unfold Memory.write
    split_ifs with h1 h2 h3 h4
    · exact hm
    · refine Memory.wf_cons.2 ⟨?_, hk, h2, hm⟩
      intro e he
      rcases List.mem_cons.1 he with rfl | he
      · exact h1
      · exact lt_trans h1 (hlt e he)
    · exact hwf
    · exact Memory.wf_cons.2 ⟨hlt, ha, h4, hwf⟩
    · refine Memory.wf_cons.2 ⟨?_, ha, hc, ih hwf⟩
      intro e he
      rcases Memory.mem_write he with rfl | he
      · simp; omega
      · exact hlt e he

/-! ### Runs of accesses -/

@[simp] theorem busRead_of_lt {a : Nat} (m : Memory) (h : a < Config.memSize) : busRead m a = .ok (m.read a) := by
  simp [busRead, h]

@[simp] theorem busRead_of_ge {a : Nat} (m : Memory) (h : Config.memSize ≤ a) : busRead m a = .error a := by
  simp [busRead, Nat.not_lt.2 h]

/-- A run of reads in bounds gives the bytes in ascending order (R54). -/
theorem busReadN_ok (m : Memory) {a n : Nat} (h : n = 0 ∨ a + n ≤ Config.memSize) :
    busReadN m a n = .ok ((List.range n).map fun k => m.read (a + k)) := by
  induction n generalizing a with
  | zero => rfl
  | succ n ih =>
    have ha : a < Config.memSize := by omega
    rw [busReadN, busRead_of_lt m ha, ih (by omega), List.range_succ_eq_map]
    simp [Function.comp_def, Nat.add_assoc, Nat.add_comm 1]

/-- A run of reads that leaves the memory fails at its first address above 4095 (R54). -/
theorem busReadN_error (m : Memory) {a n : Nat} (hn : 0 < n) (h : Config.memSize < a + n) :
    busReadN m a n = .error (max a Config.memSize) := by
  induction n generalizing a with
  | zero => omega
  | succ n ih =>
    rw [busReadN]
    by_cases ha : a < Config.memSize
    · rw [busRead_of_lt m ha, ih (by omega) (by omega), max_eq_right (by omega), max_eq_right (by omega)]
    · rw [busRead_of_ge m (by omega), max_eq_left (by omega)]

/-- A run of writes in bounds writes them all (R54). -/
theorem busWriteN_ok (m : Memory) {a : Nat} {bs : List Byte} (h : bs = [] ∨ a + bs.length ≤ Config.memSize) :
    busWriteN m a bs = .ok (m.writeN a bs) := by
  induction bs generalizing m a with
  | nil => rfl
  | cons b bs ih =>
    have h' : a + (bs.length + 1) ≤ Config.memSize := by simpa using h
    have ha : a < Config.memSize := by omega
    rw [busWriteN, busWrite, if_pos ha, Memory.writeN]
    exact ih _ (by omega)

/-- A run of writes that leaves the memory fails at its first address above 4095 (R54). -/
theorem busWriteN_error (m : Memory) {a : Nat} {bs : List Byte} (hn : bs ≠ [])
    (h : Config.memSize < a + bs.length) : busWriteN m a bs = .error (max a Config.memSize) := by
  induction bs generalizing m a with
  | nil => exact absurd rfl hn
  | cons b bs ih =>
    rw [busWriteN, busWrite]
    by_cases ha : a < Config.memSize
    · rw [if_pos ha]
      have : bs ≠ [] := by rintro rfl; simp at h; omega
      rw [List.length_cons] at h
      exact (ih _ this (by omega)).trans (by rw [max_eq_right (by omega), max_eq_right (by omega)])
    · rw [if_neg ha, max_eq_left (by omega)]

theorem Memory.wf_writeN {m : Memory} (hm : m.wf) {a : Nat} {bs : List Byte}
    (h : bs = [] ∨ a + bs.length ≤ Config.memSize) : (m.writeN a bs).wf := by
  induction bs generalizing m a with
  | nil => exact hm
  | cons b bs ih =>
    have h' : a + (bs.length + 1) ≤ Config.memSize := by simpa using h
    rw [Memory.writeN]
    exact ih (Memory.wf_write hm (by omega) b) (by omega)

/-- A run of writes leaves every address outside it alone (R42). -/
theorem Memory.read_writeN_other (m : Memory) {a j : Nat} {bs : List Byte} (h : j < a ∨ a + bs.length ≤ j) :
    (m.writeN a bs).read j = m.read j := by
  induction bs generalizing m a with
  | nil => rfl
  | cons b bs ih =>
    rw [List.length_cons] at h
    rw [Memory.writeN, ih _ (by omega), Memory.read_write_other m b (by omega)]

/-- A run of writes puts its bytes at ascending addresses. -/
theorem Memory.read_writeN {m : Memory} (hm : m.wf) {a k : Nat} {bs : List Byte} (hk : k < bs.length)
    (h : a + bs.length ≤ Config.memSize) : (m.writeN a bs).read (a + k) = bs[k] := by
  induction bs generalizing m a k with
  | nil => simp at hk
  | cons b bs ih =>
    rw [List.length_cons] at h
    rw [Memory.writeN]
    cases k with
    | zero => rw [Memory.read_writeN_other _ (by omega)]; simpa using Memory.read_write_same hm a b
    | succ k =>
      have := ih (Memory.wf_write hm (k := a) (by omega) b) (a := a + 1) (k := k) (by simpa using hk) (by omega)
      rw [show a + (k + 1) = a + 1 + k by omega, this]
      simp

theorem Memory.wf_writeSome (keep : Nat → Bool) {m : Memory} (hm : m.wf) {a : Nat} {bs : List Byte} :
    (Memory.writeSome keep m a bs).wf := by
  induction bs generalizing m a with
  | nil => exact hm
  | cons b bs ih =>
    rw [Memory.writeSome]
    apply ih
    split_ifs with h
    · exact Memory.wf_write hm h.1 b
    · exact hm

/-- A faulting run of writes leaves every address outside it alone (R162). -/
theorem Memory.read_writeSome_other (keep : Nat → Bool) (m : Memory) {a j : Nat} {bs : List Byte}
    (h : j < a ∨ a + bs.length ≤ j) : (Memory.writeSome keep m a bs).read j = m.read j := by
  induction bs generalizing m a with
  | nil => rfl
  | cons b bs ih =>
    rw [List.length_cons] at h
    rw [Memory.writeSome, ih _ (by omega)]
    split_ifs
    · exact Memory.read_write_other m b (by omega)
    · rfl

/-- A faulting run of writes leaves each of its bytes at the old value or the new one (R162). -/
theorem Memory.read_writeSome (keep : Nat → Bool) {m : Memory} (hm : m.wf) {a k : Nat} {bs : List Byte}
    (hk : k < bs.length) :
    (Memory.writeSome keep m a bs).read (a + k) =
      if a + k < Config.memSize ∧ keep (a + k) then bs[k] else m.read (a + k) := by
  induction bs generalizing m a k with
  | nil => simp at hk
  | cons b bs ih =>
    rw [Memory.writeSome]
    cases k with
    | zero =>
      rw [Memory.read_writeSome_other keep _ (by omega), Nat.add_zero]
      by_cases hc : a < Config.memSize ∧ keep a
      · rw [if_pos hc, Memory.read_write_same hm, if_pos hc]; rfl
      · rw [if_neg hc, if_neg hc]
    | succ k =>
      have hm' : (if a < Config.memSize ∧ keep a then m.write a b else m).wf := by
        split_ifs with h
        · exact Memory.wf_write hm h.1 b
        · exact hm
      rw [show a + (k + 1) = a + 1 + k by omega, ih hm' (by simpa using hk)]
      have : (if a < Config.memSize ∧ keep a then m.write a b else m).read (a + 1 + k) = m.read (a + 1 + k) := by
        split_ifs
        · exact Memory.read_write_other m b (by omega)
        · rfl
      rw [this]
      simp

end Sys2Proof.Machine
end

