-- ==== Sys2Proof/Laws/Ops.lean ====
section
/-! SUPPORT. What the shared operations can do, said once for each: the call stack, fetch, stores, the flag and
result order, register runs, the clock, the timers, the keypad and the font. -/

namespace Sys2Proof.Machine

/-! ### The call stack (10_state.md R23, R24) -/

theorem State.push_of_lt {s : State} (a : Word) (h : s.stack.length < Config.stackDepth) :
    s.push a = some { s with stack := a :: s.stack } := by
  simp [State.push, Nat.not_le.2 h]

theorem State.push_of_full {s : State} (a : Word) (h : Config.stackDepth ≤ s.stack.length) : s.push a = none := by
  simp [State.push, h]

/-- What `push` can do. -/
theorem State.push_eq_some {s t : State} {a : Word} (h : s.push a = some t) :
    s.stack.length < Config.stackDepth ∧ t = { s with stack := a :: s.stack } := by
  unfold State.push at h
  split at h
  · cases h
  · exact ⟨by omega, (Option.some.inj h).symm⟩

theorem State.pop_nil {s : State} (h : s.stack = []) : s.pop = none := by
  simp [State.pop, h]

theorem State.pop_cons {s : State} {a : Word} {rest : List Word} (h : s.stack = a :: rest) :
    s.pop = some (a, { s with stack := rest }) := by
  simp [State.pop, h]

/-- What `pop` can do. -/
theorem State.pop_eq_some {s t : State} {a : Word} (h : s.pop = some (a, t)) :
    s.stack = a :: t.stack ∧ t = { s with stack := t.stack } := by
  unfold State.pop at h
  split at h
  · cases h
  · cases h
    exact ⟨by assumption, rfl⟩

/-! ### Fetch (40_step_cycle.md R80) -/

theorem State.fetch_ok {s : State} (h : s.pc.toNat + 1 < Config.memSize) :
    s.fetch = .ok (s.mem.read s.pc.toNat, s.mem.read (s.pc.toNat + 1)) := by
  rw [State.fetch, busRead_of_lt s.mem (by omega), busRead_of_lt s.mem h]

theorem State.fetch_error {s : State} (h : Config.memSize ≤ s.pc.toNat + 1) :
    s.fetch = .error (max s.pc.toNat Config.memSize) := by
  rw [State.fetch]
  by_cases h' : Config.memSize ≤ s.pc.toNat
  · rw [busRead_of_ge s.mem h', max_eq_left h']
  · rw [busRead_of_lt s.mem (by omega), busRead_of_ge s.mem h, max_eq_right (by omega)]
    simp only [Except.error.injEq]
    omega

/-! ### Stores from I on (43_index_memory.md R123, R124) -/

theorem storeBytes_ok (instr : Instr) {bytes : List Byte} {s : State}
    (h : bytes = [] ∨ s.dataBase + bytes.length ≤ Config.memSize) :
    storeBytes instr bytes s =
      { s with
        mem := s.mem.writeN s.dataBase bytes
        events := s.events ++ writeEvents s.dataBase bytes
        pc := s.pc + 2 } := by
  rw [storeBytes, busWriteN_ok s.mem h]
  rfl

theorem storeBytes_error (instr : Instr) {bytes : List Byte} {s : State} (hn : bytes ≠ [])
    (h : Config.memSize < s.dataBase + bytes.length) :
    storeBytes instr bytes s =
      { s with
        mem := s.mem.writeSome (fun a => s.landed (.mem a)) s.dataBase bytes
        events := s.events ++
          writeEvents s.dataBase (bytes.take (max s.dataBase Config.memSize - s.dataBase))
        pc := s.faultPc
        fault := some (.memoryBoundsError s.pc (some (encode instr))
          (BitVec.ofNat 16 (max s.dataBase Config.memSize))) } := by
  rw [storeBytes, busWriteN_error s.mem hn h]
  rfl

/-! A run of stores leaves every field but memory, PC, the fault latch and the trace alone. -/

@[simp] theorem storeBytes_v (instr : Instr) (bytes : List Byte) (s : State) :
    (storeBytes instr bytes s).v = s.v := by
  unfold storeBytes
  split <;> rfl

@[simp] theorem storeBytes_i (instr : Instr) (bytes : List Byte) (s : State) :
    (storeBytes instr bytes s).i = s.i := by
  unfold storeBytes
  split <;> rfl

@[simp] theorem storeBytes_stack (instr : Instr) (bytes : List Byte) (s : State) :
    (storeBytes instr bytes s).stack = s.stack := by
  unfold storeBytes
  split <;> rfl

@[simp] theorem storeBytes_dt (instr : Instr) (bytes : List Byte) (s : State) :
    (storeBytes instr bytes s).dt = s.dt := by
  unfold storeBytes
  split <;> rfl

@[simp] theorem storeBytes_st (instr : Instr) (bytes : List Byte) (s : State) :
    (storeBytes instr bytes s).st = s.st := by
  unfold storeBytes
  split <;> rfl

@[simp] theorem storeBytes_fb (instr : Instr) (bytes : List Byte) (s : State) :
    (storeBytes instr bytes s).fb = s.fb := by
  unfold storeBytes
  split <;> rfl

@[simp] theorem storeBytes_inputs (instr : Instr) (bytes : List Byte) (s : State) :
    (storeBytes instr bytes s).inputs = s.inputs := by
  unfold storeBytes
  split <;> rfl

@[simp] theorem storeBytes_draws (instr : Instr) (bytes : List Byte) (s : State) :
    (storeBytes instr bytes s).draws = s.draws := by
  unfold storeBytes
  split <;> rfl

/-- A run of stores, faulting or not, leaves every byte outside the run alone. -/
theorem storeBytes_read_other (instr : Instr) {bytes : List Byte} {s : State} (hn : bytes ≠ []) {a : Nat}
    (h : a < s.dataBase ∨ s.dataBase + bytes.length ≤ a) :
    (storeBytes instr bytes s).mem.read a = s.mem.read a := by
  rcases Nat.lt_or_ge Config.memSize (s.dataBase + bytes.length) with h' | h'
  · rw [storeBytes_error instr hn h']
    exact Memory.read_writeSome_other _ _ h
  · rw [storeBytes_ok instr (.inr h')]
    exact Memory.read_writeN_other _ h

theorem bcdDigits_length (b : Byte) : (bcdDigits b).length = 3 := rfl

/-! ### The flag write and the result write (42_alu.md R113) -/

/-- In the sequential reading the result is computed with the flag in VF. -/
theorem State.writeFlagThen_eq (s : State) (flag : Bool) (x : Reg) (result : State → Byte) :
    s.writeFlagThen flag x result = (s.setFlag flag).writeReg x (result (s.setFlag flag)) := rfl

/-! ### Runs of registers (43_index_memory.md R124, R125) -/

theorem State.regsUpTo_length (s : State) (x : Reg) : (s.regsUpTo x).length = x.val + 1 := by
  simp [State.regsUpTo]

theorem State.regsUpTo_getElem (s : State) (x : Reg) {k : Nat} (h : k < (s.regsUpTo x).length) :
    (s.regsUpTo x)[k] = s.readReg ⟨k, by rw [State.regsUpTo_length] at h; omega⟩ := by
  simp [State.regsUpTo, State.readReg, Vector.get_eq_getElem]

theorem loadedRegs_get (v : Vector Byte 16) (bytes : List Byte) (k : Reg) :
    (loadedRegs v bytes).get k = bytes.getD k.val (v.get k) := by
  simp [loadedRegs, Vector.get_eq_getElem]

/-! ### The clock and the timers (40_step_cycle.md R88, 10_state.md R27, R28) -/

theorem Time.le_later_left (a b : Time) : a ≤ Time.later a b := by
  unfold Time.later
  split
  · assumption
  · exact le_refl a

theorem Inputs.draw_since (n : Nat) (since : Time) : since ≤ (Inputs.draw n since).timeAudio :=
  Time.le_later_left ..

theorem Inputs.draw_order (n : Nat) (since : Time) :
    (Inputs.draw n since).timeAudio ≤ (Inputs.draw n since).timeExec :=
  Time.le_later_left ..

/-- A timer's remaining value is what was set less the ticks elapsed, and not below 0 (R27). -/
theorem Timer.remaining_toNat (T : Timer) (t : Time) :
    (T.remaining t).toNat = T.value.toNat - elapsedTicks T.stamp t := by
  have := T.value.isLt
  rw [Timer.remaining, BitVec.toNat_ofNat, Nat.mod_eq_of_lt (by omega)]

theorem Timer.remaining_zero {T : Timer} (h : T.value = 0) (t : Time) : T.remaining t = 0 := by
  simp [Timer.remaining, h]

/-! ### The keypad (45_keypad.md R142) -/

theorem Inputs.keyPressed_low (inp : Inputs) (k : Fin 16) :
    inp.keyPressed (BitVec.ofNat 8 k.val) = inp.keys.get k := by
  have := k.isLt
  have h : (BitVec.ofNat 8 k.val).toNat = k.val := by
    rw [BitVec.toNat_ofNat, Nat.mod_eq_of_lt (by omega)]
  unfold Inputs.keyPressed
  rw [dif_pos (by omega)]
  simp only [h]
  rfl

theorem Inputs.keyPressed_high (inp : Inputs) {code : Byte} (h : 16 ≤ code.toNat) :
    inp.keyPressed code = inp.highKey := by
  simp [Inputs.keyPressed, Nat.not_lt.2 h]

/-- What the search for the lowest pressed key answers. -/
theorem Inputs.lowestKeyFrom_eq_some {inp : Inputs} {fuel k j : Nat} (h : inp.lowestKeyFrom fuel k = some j) :
    k ≤ j ∧ j < k + fuel ∧ inp.keyPressed (BitVec.ofNat 8 j) = true ∧
      ∀ i, k ≤ i → i < j → inp.keyPressed (BitVec.ofNat 8 i) = false := by
  induction fuel generalizing k with
  | zero => cases h
  | succ fuel ih =>
    rw [Inputs.lowestKeyFrom] at h
    split at h
    · cases h
      exact ⟨le_refl _, by omega, by assumption, by omega⟩
    · rename_i hk
      obtain ⟨h1, h2, h3, h4⟩ := ih h
      refine ⟨by omega, by omega, h3, fun i hi hj => ?_⟩
      rcases Nat.eq_or_lt_of_le hi with rfl | hi
      · simpa using hk
      · exact h4 i hi hj

/-- No key is found exactly when none is pressed. -/
theorem Inputs.lowestKeyFrom_eq_none {inp : Inputs} {fuel k : Nat} :
    inp.lowestKeyFrom fuel k = none ↔ ∀ i, k ≤ i → i < k + fuel → inp.keyPressed (BitVec.ofNat 8 i) = false := by
  induction fuel generalizing k with
  | zero => simp [Inputs.lowestKeyFrom]; omega
  | succ fuel ih =>
    rw [Inputs.lowestKeyFrom]
    by_cases hk : inp.keyPressed (BitVec.ofNat 8 k) = true
    · simp only [hk, if_true, reduceCtorEq, false_iff]
      intro h
      simp [h k (le_refl k) (by omega)] at hk
    · rw [if_neg hk, ih]
      constructor
      · intro h i hi hj
        rcases Nat.eq_or_lt_of_le hi with rfl | hi
        · simpa using hk
        · exact h i hi (by omega)
      · exact fun h i hi hj => h i (by omega) (by omega)

/-! ### The font (00_scope.md R5) -/

@[simp] theorem font_length (font : Vector Byte Config.fontLen) : font.toList.length = 80 := font.length_toList

@[simp] theorem font_getElem (font : Vector Byte Config.fontLen) {k : Nat} (h : k < font.toList.length) :
    font.toList[k] = font[k]'(by rw [font.length_toList] at h; exact h) := Vector.getElem_toList h

end Sys2Proof.Machine
end

