-- ==== Sys2Proof/Laws/Exec.lean ====
section
/-! SUPPORT. What each instruction with more than one way to end can do, said once: the return, the call, the two
stores, the register load, the draw and the key wait.  Every other arm of `exec` has one way to end, and unfolds by
`rfl`. -/

namespace Sys2Proof.Machine

/-- What 00EE can do (R90). -/
theorem execRet_cases {s t : State} (h : exec .ret s = .next t) :
    (∃ a rest, s.stack = a :: rest ∧ t = { s with stack := rest, pc := a }) ∨
    (s.stack = [] ∧ t = { s with fault := some (.stackUnderflow s.pc (encode .ret)) }) := by
  simp only [exec, execRet, Host.Outcome.next.injEq] at h
  subst h
  rcases hs : s.stack with _ | ⟨a, rest⟩
  · rw [State.pop_nil hs]; exact .inr ⟨rfl, hs ▸ rfl⟩
  · rw [State.pop_cons hs]; exact .inl ⟨a, rest, rfl, rfl⟩

/-- What 2NNN can do (R92). -/
theorem execCall_cases {s t : State} {nnn : Addr12} (h : exec (.call nnn) s = .next t) :
    (s.stack.length < Config.stackDepth ∧ t = { s with stack := (s.pc + 2) :: s.stack, pc := zext16 nnn }) ∨
    (Config.stackDepth ≤ s.stack.length ∧
      t = { s with fault := some (.stackOverflow s.pc (encode (.call nnn))) }) := by
  simp only [exec, execCall, Host.Outcome.next.injEq] at h
  subst h
  rcases Nat.lt_or_ge s.stack.length Config.stackDepth with hs | hs
  · rw [State.push_of_lt _ hs]; exact .inl ⟨hs, rfl⟩
  · rw [State.push_of_full _ hs]; exact .inr ⟨hs, rfl⟩

/-- What a run of stores can do (R123, R124). -/
theorem storeBytes_cases (instr : Instr) {bytes : List Byte} (s : State) (hn : bytes ≠ []) :
    (s.dataBase + bytes.length ≤ Config.memSize ∧
      storeBytes instr bytes s =
        { s with
          mem := s.mem.writeN s.dataBase bytes
          events := s.events ++ writeEvents s.dataBase bytes
          pc := s.pc + 2 }) ∨
    (Config.memSize < s.dataBase + bytes.length ∧
      storeBytes instr bytes s =
        { s with
          mem := s.mem.writeSome (fun a => s.landed (.mem a)) s.dataBase bytes
          events := s.events ++
            writeEvents s.dataBase (bytes.take (max s.dataBase Config.memSize - s.dataBase))
          pc := s.faultPc
          fault := some (.memoryBoundsError s.pc (some (encode instr))
            (BitVec.ofNat 16 (max s.dataBase Config.memSize))) }) := by
  rcases Nat.lt_or_ge Config.memSize (s.dataBase + bytes.length) with h | h
  · exact .inr ⟨h, storeBytes_error instr hn h⟩
  · exact .inl ⟨h, storeBytes_ok instr (.inr h)⟩

/-- What FX33 can do: a run of stores of the three digits (R123). -/
theorem execLdB_eq {s t : State} {x : Reg} (h : exec (.ldB x) s = .next t) :
    t = storeBytes (.ldB x) (bcdDigits (s.readReg x)) s := by
  exact (Host.Outcome.next.inj h).symm

/-- What FX55 can do: a run of stores of V0 to Vx (R124). -/
theorem execStoreRegs_eq {s t : State} {x : Reg} (h : exec (.storeRegs x) s = .next t) :
    t = storeBytes (.storeRegs x) (s.regsUpTo x) s := by
  exact (Host.Outcome.next.inj h).symm

/-- What FX65 can do (R125). -/
theorem execLoadRegs_cases {s t : State} {x : Reg} (h : exec (.loadRegs x) s = .next t) :
    (s.dataBase + (x.val + 1) ≤ Config.memSize ∧
      t = { s with
        v := loadedRegs s.v ((List.range (x.val + 1)).map fun k => s.mem.read (s.dataBase + k))
        events := s.events ++ readEvents s.dataBase (x.val + 1)
        pc := s.pc + 2 }) ∨
    (Config.memSize < s.dataBase + (x.val + 1) ∧
      t = { s with
        v := s.faultLoadedRegs x
        events := s.events ++ readEvents s.dataBase (max s.dataBase Config.memSize - s.dataBase)
        pc := s.faultPc
        fault := some (.memoryBoundsError s.pc (some (encode (.loadRegs x)))
          (BitVec.ofNat 16 (max s.dataBase Config.memSize))) }) := by
  simp only [exec, execLoadRegs, Host.Outcome.next.injEq] at h
  subst h
  rcases Nat.lt_or_ge Config.memSize (s.dataBase + (x.val + 1)) with hs | hs
  · rw [busReadN_error s.mem (by omega) hs]; exact .inr ⟨hs, rfl⟩
  · rw [busReadN_ok s.mem (.inr hs)]
    refine .inl ⟨hs, ?_⟩
    simp only [State.emit, State.fallThrough, State.setPc]

/-- What DXYN can do (R131, R133). -/
theorem execDrw_cases {s t : State} {x y : Reg} {n : RowCount} (h : exec (.drw x y n) s = .next t) :
    ((n.val = 0 ∨ s.dataBase + n.val ≤ Config.memSize) ∧
      ∃ b, b = drawSprite (s.readReg x) (s.readReg y)
          ((List.range n.val).map fun k => s.mem.read (s.dataBase + k)) s.fb ∧
        t = { s with
          v := s.v.set 15 (flagByte b.collision)
          fb := b.fb
          events := s.events ++ (readEvents s.dataBase n.val ++ [Event.render b.fb])
          pc := s.pc + 2 }) ∨
    (0 < n.val ∧ Config.memSize < s.dataBase + n.val ∧
      t = { s with
        v := s.v.set 15 s.faultFlag
        fb := s.faultFramebuffer (s.readReg x) (s.readReg y) n
        events := s.events ++ readEvents s.dataBase (max s.dataBase Config.memSize - s.dataBase)
        pc := s.faultPc
        fault := some (.memoryBoundsError s.pc (some (encode (.drw x y n)))
          (BitVec.ofNat 16 (max s.dataBase Config.memSize))) }) := by
  simp only [exec, execDrw, Host.Outcome.next.injEq] at h
  subst h
  by_cases hs : n.val = 0 ∨ s.dataBase + n.val ≤ Config.memSize
  · rw [busReadN_ok s.mem hs]; exact .inl ⟨hs, _, rfl, rfl⟩
  · rw [busReadN_error s.mem (by omega) (by omega)]; exact .inr ⟨by omega, by omega, rfl⟩

/-- What FX0A can do (R143). -/
theorem execLdVxK_cases {s t : State} {x : Reg} (h : exec (.ldVxK x) s = .next t) :
    (∃ k, s.inputs.lowestKey = some k ∧
      t = { s with
        v := s.v.set x (BitVec.ofNat 8 k)
        events := s.events ++ pollEvents (k + 1)
        pc := s.pc + 2 }) ∨
    (s.inputs.lowestKey = none ∧ t = { s with events := s.events ++ pollEvents 16 }) := by
  simp only [exec, execLdVxK, Host.Outcome.next.injEq] at h
  subst h
  cases s.inputs.lowestKey with
  | none => exact .inr ⟨rfl, rfl⟩
  | some k => exact .inl ⟨k, rfl, rfl⟩

end Sys2Proof.Machine
end

