-- ==== Sys2Proof/Laws/PerInstr.lean ====
section
/-! SUPPORT. Statements about every instruction as syntax, one lemma per constructor.  Family `EncodeRow`: the
encoding of an instruction is selected by its own row of the opcode table (30_encoding.md R66). -/

namespace Sys2Proof

/-- A `kNNN` word under the mask 0xF000. -/
theorem mask_addr (k : BitVec 4) (nnn : Addr12) :
    (k ++ nnn : Word) &&& 0xF000#16 = k ++ 0#12 := by
  ext i hi
  have hi' : i < 16 := hi
  interval_cases i <;> simp <;> grind

/-- A `kXNN` word under the mask 0xF000. -/
theorem mask_regImm (k x : BitVec 4) (nn : Byte) :
    (k ++ x ++ nn : Word) &&& 0xF000#16 = k ++ 0#12 := by
  ext i hi
  have hi' : i < 16 := hi
  interval_cases i <;> simp <;> grind

/-- A `kXYN` word under the mask 0xF000. -/
theorem mask_draw (k x y n : BitVec 4) :
    (k ++ x ++ y ++ n : Word) &&& 0xF000#16 = k ++ 0#12 := by
  ext i hi
  have hi' : i < 16 := hi
  interval_cases i <;> simp <;> grind

/-- A `kXYs` word under the mask 0xF00F. -/
theorem mask_regReg (k x y z : BitVec 4) :
    (k ++ x ++ y ++ z : Word) &&& 0xF00F#16 = k ++ 0#8 ++ z := by
  ext i hi
  have hi' : i < 16 := hi
  interval_cases i <;> simp <;> grind

/-- A `kXss` word under the mask 0xF0FF. -/
theorem mask_regOp (k x : BitVec 4) (ss : Byte) :
    (k ++ x ++ ss : Word) &&& 0xF0FF#16 = k ++ 0#4 ++ ss := by
  ext i hi
  have hi' : i < 16 := hi
  interval_cases i <;> simp <;> grind

/-- The word of `i` is selected by row `i.rowNumber` of R66. -/
def Laws.EncodeRow.Statement (i : Instr) : Prop := rowSelects i.rowNumber (encode i) = true

namespace Laws.EncodeRow

theorem cls : Statement .cls := rfl
theorem ret : Statement .ret := rfl
theorem jp (nnn : Addr12) : Statement (.jp nnn) := beq_iff_eq.2 (mask_addr ..)
theorem call (nnn : Addr12) : Statement (.call nnn) := beq_iff_eq.2 (mask_addr ..)
theorem seImm (x : Reg) (nn : Byte) : Statement (.seImm x nn) := beq_iff_eq.2 (mask_regImm ..)
theorem sneImm (x : Reg) (nn : Byte) : Statement (.sneImm x nn) := beq_iff_eq.2 (mask_regImm ..)
theorem seReg (x y : Reg) : Statement (.seReg x y) := beq_iff_eq.2 (mask_regReg ..)
theorem ldImm (x : Reg) (nn : Byte) : Statement (.ldImm x nn) := beq_iff_eq.2 (mask_regImm ..)
theorem addImm (x : Reg) (nn : Byte) : Statement (.addImm x nn) := beq_iff_eq.2 (mask_regImm ..)
theorem ldReg (x y : Reg) : Statement (.ldReg x y) := beq_iff_eq.2 (mask_regReg ..)
theorem orReg (x y : Reg) : Statement (.orReg x y) := beq_iff_eq.2 (mask_regReg ..)
theorem andReg (x y : Reg) : Statement (.andReg x y) := beq_iff_eq.2 (mask_regReg ..)
theorem xorReg (x y : Reg) : Statement (.xorReg x y) := beq_iff_eq.2 (mask_regReg ..)
theorem addReg (x y : Reg) : Statement (.addReg x y) := beq_iff_eq.2 (mask_regReg ..)
theorem subReg (x y : Reg) : Statement (.subReg x y) := beq_iff_eq.2 (mask_regReg ..)
theorem shr (x y : Reg) : Statement (.shr x y) := beq_iff_eq.2 (mask_regReg ..)
theorem subnReg (x y : Reg) : Statement (.subnReg x y) := beq_iff_eq.2 (mask_regReg ..)
theorem shl (x y : Reg) : Statement (.shl x y) := beq_iff_eq.2 (mask_regReg ..)
theorem sneReg (x y : Reg) : Statement (.sneReg x y) := beq_iff_eq.2 (mask_regReg ..)
theorem ldI (nnn : Addr12) : Statement (.ldI nnn) := beq_iff_eq.2 (mask_addr ..)
theorem jpV0 (nnn : Addr12) : Statement (.jpV0 nnn) := beq_iff_eq.2 (mask_addr ..)
theorem rnd (x : Reg) (nn : Byte) : Statement (.rnd x nn) := beq_iff_eq.2 (mask_regImm ..)
theorem drw (x y : Reg) (n : RowCount) : Statement (.drw x y n) := beq_iff_eq.2 (mask_draw ..)
theorem skp (x : Reg) : Statement (.skp x) := beq_iff_eq.2 (mask_regOp ..)
theorem sknp (x : Reg) : Statement (.sknp x) := beq_iff_eq.2 (mask_regOp ..)
theorem ldVxDT (x : Reg) : Statement (.ldVxDT x) := beq_iff_eq.2 (mask_regOp ..)
theorem ldVxK (x : Reg) : Statement (.ldVxK x) := beq_iff_eq.2 (mask_regOp ..)
theorem ldDT (x : Reg) : Statement (.ldDT x) := beq_iff_eq.2 (mask_regOp ..)
theorem ldST (x : Reg) : Statement (.ldST x) := beq_iff_eq.2 (mask_regOp ..)
theorem addI (x : Reg) : Statement (.addI x) := beq_iff_eq.2 (mask_regOp ..)
theorem ldF (x : Reg) : Statement (.ldF x) := beq_iff_eq.2 (mask_regOp ..)
theorem ldB (x : Reg) : Statement (.ldB x) := beq_iff_eq.2 (mask_regOp ..)
theorem storeRegs (x : Reg) : Statement (.storeRegs x) := beq_iff_eq.2 (mask_regOp ..)
theorem loadRegs (x : Reg) : Statement (.loadRegs x) := beq_iff_eq.2 (mask_regOp ..)

end Laws.EncodeRow

end Sys2Proof
end

