-- ==== Sys2Proof/Laws/Step.lean ====
section
/-! SUPPORT. What one step can do (40_step_cycle.md R89), for proofs about every step. -/

namespace Sys2Proof.Machine

/-- Every instruction answers a next state, whatever the state: this model has no stop. -/
theorem exec_next (i : Instr) (s : State) : ∃ t, exec i s = .next t := by
  cases i <;> exact ⟨_, rfl⟩

/-- What a step can do: nothing when halted; a fetch fault; UnknownOpcode; or the decoded instruction. -/
theorem step_cases {s t : State} (h : step s = .next t) :
    (s.fault ≠ none ∧ t = s) ∨
    (s.fault = none ∧ Config.memSize ≤ s.pc.toNat + 1 ∧ t = s.fetchFault (max s.pc.toNat Config.memSize)) ∨
    (s.fault = none ∧ s.pc.toNat + 1 < Config.memSize ∧
      (∃ e, decodePair (s.mem.read s.pc.toNat) (s.mem.read (s.pc.toNat + 1)) = .error e) ∧
      t = s.unknownOpcode (s.mem.read s.pc.toNat) (s.mem.read (s.pc.toNat + 1))) ∨
    (s.fault = none ∧ s.pc.toNat + 1 < Config.memSize ∧
      ∃ i u, decodePair (s.mem.read s.pc.toNat) (s.mem.read (s.pc.toNat + 1)) = .ok i ∧
        exec i s.afterFetch = .next u ∧ t = u.nextInputs) := by
  unfold step at h
  cases hf : s.fault with
  | some f => simp only [hf] at h; cases h; simp
  | none =>
    simp only [hf] at h
    by_cases hp : s.pc.toNat + 1 < Config.memSize
    · simp only [State.fetch_ok hp] at h
      cases hd : decodePair (s.mem.read s.pc.toNat) (s.mem.read (s.pc.toNat + 1)) with
      | error e => simp only [hd] at h; cases h; exact .inr (.inr (.inl ⟨rfl, hp, ⟨e, rfl⟩, rfl⟩))
      | ok i =>
        simp only [hd] at h
        obtain ⟨u, hu⟩ := exec_next i s.afterFetch
        rw [hu] at h
        cases h
        exact .inr (.inr (.inr ⟨rfl, hp, i, u, rfl, hu, rfl⟩))
    · simp only [State.fetch_error (Nat.not_lt.1 hp)] at h
      cases h
      exact .inr (.inl ⟨rfl, Nat.not_lt.1 hp, rfl⟩)

end Sys2Proof.Machine
end

