-- ==== Sys2Proof/Tests/Slice0.lean ====
section
/-! SUPPORT. Small checks of the model.  Expected values come from the spec: words from the encodings of
30_encoding.md R66, results from 95_test_vectors.md (the vector's name is in the theorem's name) or from the rule
cited.  Then, for every statement with hypotheses, a witness that they can be met. -/

namespace Sys2Proof.Machine

/-! ## Helpers -/

/-- Inputs with no key pressed, the random byte 0xA7 and both clock samples 0. -/
def quiet : Inputs :=
  { keys := Vector.replicate 16 false, highKey := false, random := 0xA7, timeAudio := 0, timeExec := 0 }

/-- Inputs with a list of keys pressed. -/
def pressing (ks : List Nat) : Inputs := { quiet with keys := Vector.ofFn fun k => ks.contains k.val }

/-- Inputs with both clock samples at one instant. -/
def atTime (t : Time) : Inputs := { quiet with timeAudio := t, timeExec := t }

/-- The reset state with known inputs. -/
def start : State := { State.reset with inputs := quiet }

/-- A state with some registers set. -/
def State.regs (s : State) (vs : List (Reg × Byte)) : State := vs.foldl (fun t p => t.writeReg p.1 p.2) s

/-- A state with bytes at an address. -/
def State.bytes (s : State) (a : Nat) (bs : List Byte) : State := { s with mem := s.mem.writeN a bs }

/-- A state with some pixels on. -/
def State.pixels (s : State) (ps : List (Fin 64 × Fin 32)) : State :=
  { s with fb := ps.foldl (fun fb p => fb.setPixel p.1 p.2 true) s.fb }

/-- A state with a stack of `n` entries 0x202. -/
def State.calls (s : State) (n : Nat) : State := { s with stack := List.replicate n 0x202 }

/-- What is true of the state an instruction leads to. -/
def after (i : Instr) (s : State) (p : State → Bool) : Bool :=
  match exec i s with
  | .next t => p t
  | .fault _ => false
  | .refused _ => false

/-- What is true of the state after one step on an instruction word placed at PC. -/
def afterWord (w : Nat) (s : State) (p : State → Bool) : Bool :=
  match step (s.withFetchWord 16 w) with
  | .next t => p t
  | .fault _ => false
  | .refused _ => false

/-- The pixels that are on, row by row, of a part of the screen. -/
def State.lit (s : State) (ps : List (Fin 64 × Fin 32)) : Bool :=
  ps.all (fun p => s.fb.pixel p.1 p.2)

/-- How many pixels are on. -/
def State.litCount (s : State) : Nat := (s.fb.toList.map fun row => row.toList.count true).sum

/-! ## Well-formedness: an ill-formed term for each check -/

theorem test_wf_zero_refuses : ({ n0 := 0, n1 := 1, n2 := 0xE, n3 := 0 : Fields }).wfZero = false := by decide
theorem test_wf_skipReg_refuses : ({ n0 := 5, n1 := 0, n2 := 0, n3 := 1 : Fields }).wfSkipReg = false := by decide
theorem test_wf_alu_refuses : ({ n0 := 8, n1 := 0, n2 := 1, n3 := 8 : Fields }).wfAlu = false := by decide
theorem test_wf_key_refuses : ({ n0 := 0xE, n1 := 0, n2 := 9, n3 := 0xF : Fields }).wfKey = false := by decide
theorem test_wf_misc_refuses : ({ n0 := 0xF, n1 := 0, n2 := 3, n3 := 0 : Fields }).wfMisc = false := by decide

/-- The illegal words the spec's test vectors list are refused. -/
theorem test_wf_refuses_illegal_words :
    [0x0000, 0x00E1, 0x00EF, 0x01E0, 0x0FEE, 0x0123, 0x5011, 0x500F, 0x8018, 0x800D, 0x800F, 0x9AB1, 0xE09F, 0xE0A0,
      0xE000, 0xF000, 0xF008, 0xF01F, 0xF030, 0xF075, 0xF085, 0xF0FF].all
      (fun w : Word => !(extractFields (highByte w) (lowByte w)).wf) = true := by decide

/-- Their nearest legal neighbours are accepted. -/
theorem test_wf_accepts_neighbours :
    [0x00E0, 0x00EE, 0x5010, 0x8017, 0x800E, 0x9AB0, 0xE09E, 0xE0A1, 0xF007, 0xF01E, 0xF029, 0xF065].all
      (fun w : Word => (extractFields (highByte w) (lowByte w)).wf) = true := by decide

/-! ## Decoding: one word of each instruction, written out from R66 -/

theorem test_decode_cls : decodeWord 0b0000000011100000 = .ok .cls := by decide
theorem test_decode_ret : decodeWord 0b0000000011101110 = .ok .ret := by decide
theorem test_decode_jp : decodeWord 0b0001101010111100 = .ok (.jp 0xABC) := by decide
theorem test_decode_call : decodeWord 0b0010001101000101 = .ok (.call 0x345) := by decide
theorem test_decode_seImm : decodeWord 0b0011000101000010 = .ok (.seImm 1 0x42) := by decide
theorem test_decode_sneImm : decodeWord 0b0100000101000011 = .ok (.sneImm 1 0x43) := by decide
theorem test_decode_seReg : decodeWord 0b0101000100100000 = .ok (.seReg 1 2) := by decide
theorem test_decode_ldImm : decodeWord 0b0110000001110111 = .ok (.ldImm 0 0x77) := by decide
theorem test_decode_addImm : decodeWord 0b0111000111111111 = .ok (.addImm 1 0xFF) := by decide
theorem test_decode_ldReg : decodeWord 0b1000000100100000 = .ok (.ldReg 1 2) := by decide
theorem test_decode_orReg : decodeWord 0b1000000100100001 = .ok (.orReg 1 2) := by decide
theorem test_decode_andReg : decodeWord 0b1000000100100010 = .ok (.andReg 1 2) := by decide
theorem test_decode_xorReg : decodeWord 0b1000000100100011 = .ok (.xorReg 1 2) := by decide
theorem test_decode_addReg : decodeWord 0b1000101010110100 = .ok (.addReg 10 11) := by decide
theorem test_decode_subReg : decodeWord 0b1000000100100101 = .ok (.subReg 1 2) := by decide
theorem test_decode_shr : decodeWord 0b1000000111110110 = .ok (.shr 1 15) := by decide
theorem test_decode_subnReg : decodeWord 0b1000000100100111 = .ok (.subnReg 1 2) := by decide
theorem test_decode_shl : decodeWord 0b1000000111111110 = .ok (.shl 1 15) := by decide
theorem test_decode_sneReg : decodeWord 0b1001000100100000 = .ok (.sneReg 1 2) := by decide
theorem test_decode_ldI : decodeWord 0b1010111111111110 = .ok (.ldI 0xFFE) := by decide
theorem test_decode_jpV0 : decodeWord 0b1011001100000001 = .ok (.jpV0 0x301) := by decide
theorem test_decode_rnd : decodeWord 0b1100000100001111 = .ok (.rnd 1 0x0F) := by decide
theorem test_decode_drw : decodeWord 0b1101000100101111 = .ok (.drw 1 2 15) := by decide
theorem test_decode_skp : decodeWord 0b1110001110011110 = .ok (.skp 3) := by decide
theorem test_decode_sknp : decodeWord 0b1110001110100001 = .ok (.sknp 3) := by decide
theorem test_decode_ldVxDT : decodeWord 0b1111001000000111 = .ok (.ldVxDT 2) := by decide
theorem test_decode_ldVxK : decodeWord 0b1111010100001010 = .ok (.ldVxK 5) := by decide
theorem test_decode_ldDT : decodeWord 0b1111010000010101 = .ok (.ldDT 4) := by decide
theorem test_decode_ldST : decodeWord 0b1111000000011000 = .ok (.ldST 0) := by decide
theorem test_decode_addI : decodeWord 0b1111001000011110 = .ok (.addI 2) := by decide
theorem test_decode_ldF : decodeWord 0b1111001100101001 = .ok (.ldF 3) := by decide
theorem test_decode_ldB : decodeWord 0b1111010000110011 = .ok (.ldB 4) := by decide
theorem test_decode_storeRegs : decodeWord 0b1111000101010101 = .ok (.storeRegs 1) := by decide
theorem test_decode_loadRegs : decodeWord 0b1111001001100101 = .ok (.loadRegs 2) := by decide

/-- The host's numbering: one word, its low bits first (98_reader.md). -/
theorem test_decodeTableWord : decodeTableWord 16 0xD12F = some (.drw 1 2 15) := by decide

/-- Too few bytes are rejected by name. -/
theorem test_decode_truncated : decodeBytes [0x60] = .error .truncated := by decide

/-! ## One step on one word -/

theorem test_DRW1_cls : afterWord 0x00E0 (start.pixels [(0, 0), (63, 31), (10, 10)])
    (fun t => t.litCount == 0 && t.pc == 0x202) = true := by decide
theorem test_CF4_ret : afterWord 0x00EE { start.calls 1 with pc := 0x345 }
    (fun t => t.stack == [] && t.pc == 0x202) = true := by decide
theorem test_CF9_ret_underflow : afterWord 0x00EE start
    (fun t => t.fault == some (.stackUnderflow 0x200 0x00EE) && t.pc == 0x200 && t.faultKind == 3) = true := by
  decide
theorem test_CF1_jp : afterWord 0x1ABC start (fun t => t.pc == 0xABC) = true := by decide
theorem test_CF3_call : afterWord 0x2345 start (fun t => t.stack == [0x202] && t.pc == 0x345) = true := by
  decide
theorem test_CF8_call_overflow : afterWord 0x2345 (start.calls 16)
    (fun t => t.fault == some (.stackOverflow 0x200 0x2345) && t.pc == 0x200 && t.stack.length == 16) = true := by
  decide
theorem test_CF6_jpV0 : afterWord 0xBFFF (start.regs [(0, 0xFF)])
    (fun t => t.pc == 0x10FE && t.fault == none) = true := by decide
theorem test_CF7_jpV0_reads_V0 : afterWord 0xB300 (start.regs [(0, 0x04), (3, 0x99)])
    (fun t => t.pc == 0x304) = true := by decide
theorem test_CF10_seImm : afterWord 0x3142 (start.regs [(1, 0x42)]) (fun t => t.pc == 0x204) = true := by
  decide
theorem test_CF20_seImm_at_end : afterWord 0x3000 { start with pc := 4094 }
    (fun t => t.pc == 4098 && t.fault == none) = true := by decide
theorem test_CF13_sneImm : afterWord 0x4143 (start.regs [(1, 0x42)]) (fun t => t.pc == 0x204) = true := by
  decide
theorem test_CF14_seReg : afterWord 0x5120 (start.regs [(1, 7), (2, 7)]) (fun t => t.pc == 0x204) = true := by
  decide
theorem test_CF15_seReg : afterWord 0x5120 (start.regs [(1, 7), (2, 8)]) (fun t => t.pc == 0x202) = true := by
  decide
theorem test_CF17_sneReg : afterWord 0x9120 (start.regs [(1, 7), (2, 8)]) (fun t => t.pc == 0x204) = true := by
  decide

theorem test_ALU1_ldImm : afterWord 0x6177 (start.regs [(15, 5)])
    (fun t => t.readReg 1 == 0x77 && t.readReg 15 == 5 && t.pc == 0x202) = true := by decide
theorem test_ALU3_addImm_no_flag : afterWord 0x7103 (start.regs [(1, 0xFE), (15, 5)])
    (fun t => t.readReg 1 == 0x01 && t.readReg 15 == 5) = true := by decide
theorem test_AL27_addImm_VF : afterWord 0x7F01 (start.regs [(15, 0xFF)]) (fun t => t.readReg 15 == 0) = true := by
  decide
theorem test_ALU4_ldReg : afterWord 0x8120 (start.regs [(1, 0x11), (2, 0x7B)])
    (fun t => t.readReg 1 == 0x7B && t.readReg 2 == 0x7B) = true := by decide
theorem test_ALU5_orReg : afterWord 0x8121 (start.regs [(1, 0xF0), (2, 0x0F), (15, 7)])
    (fun t => t.readReg 1 == 0xFF && t.readReg 15 == 7) = true := by decide
theorem test_ALU6_andReg : afterWord 0x8122 (start.regs [(1, 0xF3), (2, 0x3F), (15, 7)])
    (fun t => t.readReg 1 == 0x33 && t.readReg 15 == 7) = true := by decide
theorem test_ALU7_xorReg : afterWord 0x8123 (start.regs [(1, 0xFF), (2, 0x0F), (15, 7)])
    (fun t => t.readReg 1 == 0xF0 && t.readReg 15 == 7) = true := by decide
theorem test_ALU8_addReg : afterWord 0x8124 (start.regs [(1, 0xFF), (2, 0x01)])
    (fun t => t.readReg 1 == 0 && t.readReg 15 == 1) = true := by decide
theorem test_AL2_addReg_VF : afterWord 0x8F14 (start.regs [(15, 0xFF), (1, 2)])
    (fun t => t.readReg 15 == 1) = true := by decide
theorem test_ALU13_subReg : afterWord 0x8125 (start.regs [(1, 0x10), (2, 0x20), (15, 9)])
    (fun t => t.readReg 1 == 0xF0 && t.readReg 15 == 0) = true := by decide
theorem test_AL9_subReg_VF : afterWord 0x81F5 (start.regs [(1, 5), (15, 3)])
    (fun t => t.readReg 1 == 4 && t.readReg 15 == 1) = true := by decide
theorem test_ALU17_shr : afterWord 0x8126 (start.regs [(1, 0x81), (2, 0x03)])
    (fun t => t.readReg 1 == 0x40 && t.readReg 15 == 1 && t.readReg 2 == 3) = true := by decide
theorem test_AL14_shr_VF : afterWord 0x8F16 (start.regs [(15, 0xFF)]) (fun t => t.readReg 15 == 0) = true := by
  decide
theorem test_ALU22_subnReg : afterWord 0x8127 (start.regs [(1, 0x20), (2, 0x10), (15, 9)])
    (fun t => t.readReg 1 == 0xF0 && t.readReg 15 == 0) = true := by decide
theorem test_AL19_subnReg_VF : afterWord 0x81F7 (start.regs [(1, 3), (15, 5)])
    (fun t => t.readReg 1 == 0xFE && t.readReg 15 == 1) = true := by decide
theorem test_ALU25_shl : afterWord 0x812E (start.regs [(1, 0x81), (2, 0x03)])
    (fun t => t.readReg 1 == 0x02 && t.readReg 15 == 1 && t.readReg 2 == 3) = true := by decide
theorem test_AL24_shl_VF : afterWord 0x8F1E (start.regs [(15, 0xFF)]) (fun t => t.readReg 15 == 2) = true := by
  decide
theorem test_ALU29_rnd : afterWord 0xC10F (start.regs [(15, 9)])
    (fun t => t.readReg 1 == 0x07 && t.readReg 15 == 9) = true := by decide

theorem test_IX1_ldI : afterWord 0xAFFF start (fun t => t.i == 0x0FFF) = true := by decide
theorem test_IX3_addI_no_wrap : afterWord 0xF21E ({ start with i := 0x0FFF }.regs [(2, 1), (15, 9)])
    (fun t => t.i == 0x1000 && t.readReg 15 == 9 && t.fault == none) = true := by decide
theorem test_IX5_addI_wraps : afterWord 0xF21E ({ start with i := 0xFFF0 }.regs [(2, 0xFF)])
    (fun t => t.i == 0x00EF) = true := by decide
theorem test_IX6_ldF : afterWord 0xF329 (start.regs [(3, 0x0A)]) (fun t => t.i == 0x0032) = true := by decide
theorem test_IX9_ldF_unmasked : afterWord 0xF329 (start.regs [(3, 0xFF)]) (fun t => t.i == 0x04FB) = true := by
  decide
theorem test_IX12_ldB : afterWord 0xF433 ({ start with i := 4093 }.regs [(4, 255)])
    (fun t => t.mem.read 4093 == 2 && t.mem.read 4094 == 5 && t.mem.read 4095 == 5 && t.i == 4093) = true := by
  decide
theorem test_IX13_ldB_faults : afterWord 0xF433 ({ start with i := 4094 }.regs [(4, 7)])
    (fun t => t.fault == some (.memoryBoundsError 0x200 (some 0xF433) 4096)) = true := by decide
theorem test_IX15_storeRegs : afterWord 0xF155 ({ start with i := 0x300 }.regs [(0, 0x12), (1, 0x08), (2, 0x99)])
    (fun t => t.mem.read 0x300 == 0x12 && t.mem.read 0x301 == 0x08 && t.mem.read 0x302 == 0 && t.i == 0x300) =
      true := by decide
theorem test_IX18_storeRegs_faults : afterWord 0xF055 { start with i := 0x1000 }
    (fun t => t.fault == some (.memoryBoundsError 0x200 (some 0xF055) 0x1000)) = true := by decide
theorem test_IX20_loadRegs : afterWord 0xF265 (({ start with i := 0x300 }.bytes 0x300 [2, 5, 4, 7]).regs [(3, 0x66)])
    (fun t => t.readReg 0 == 2 && t.readReg 1 == 5 && t.readReg 2 == 4 && t.readReg 3 == 0x66 && t.i == 0x300) =
      true := by decide
theorem test_IX22_loadRegs_faults : afterWord 0xF665 { start with i := 4090 }
    (fun t => t.fault == some (.memoryBoundsError 0x200 (some 0xF665) 4096)) = true := by decide

theorem test_DRW2_drw_wraps : afterWord 0xD012
    (({ start with i := 0x300 }.bytes 0x300 [0xC0, 0x81]).regs [(0, 62), (1, 31)])
    (fun t => t.lit [(62, 31), (63, 31), (62, 0), (5, 0)] && t.litCount == 4 && t.readReg 15 == 0) = true := by
  decide
theorem test_DRW6_drw_collides : afterWord 0xD011 (({ start with i := 0x300 }.bytes 0x300 [0xC0]).pixels [(1, 0)])
    (fun t => t.lit [(0, 0)] && t.litCount == 1 && t.readReg 15 == 1) = true := by decide

theorem test_KEY1_skp : afterWord 0xE39E ({ start with inputs := pressing [10] }.regs [(3, 0x0A)])
    (fun t => t.pc == 0x204) = true := by decide
theorem test_KEY2_skp : afterWord 0xE39E (start.regs [(3, 0x0A)]) (fun t => t.pc == 0x202) = true := by
  decide
theorem test_KEY3_sknp : afterWord 0xE3A1 ({ start with inputs := pressing [10] }.regs [(3, 0x0A)])
    (fun t => t.pc == 0x202) = true := by decide
theorem test_KEY4_sknp : afterWord 0xE3A1 ({ start with inputs := pressing [3] }.regs [(3, 0x0A)])
    (fun t => t.pc == 0x204) = true := by decide
theorem test_KEY6_ldVxK : afterWord 0xF50A ({ start with inputs := pressing [3, 7] }.regs [(5, 0x77)])
    (fun t => t.readReg 5 == 3 && t.pc == 0x202 &&
      t.events == [.memRead 0x200, .memRead 0x201, .keyPoll 0, .keyPoll 1, .keyPoll 2, .keyPoll 3]) = true := by
  decide +kernel
theorem test_KEY7_ldVxK_waits : afterWord 0xF50A (start.regs [(5, 0x77)])
    (fun t => t.readReg 5 == 0x77 && t.pc == 0x200) = true := by decide

theorem test_TM5_ldVxDT : afterWord 0xF207
    { start with dt := { value := 30, stamp := 1 }, inputs := atTime (1017 / 1000) }
    (fun t => t.readReg 2 == 29) = true := by decide +kernel
theorem test_TM9_ldVxDT_never_negative : afterWord 0xF207
    { start with dt := { value := 30, stamp := 1 }, inputs := atTime 100 }
    (fun t => t.readReg 2 == 0) = true := by decide +kernel
theorem test_TM2_ldDT : afterWord 0xF415 ({ start with inputs := atTime 1 }.regs [(4, 30)])
    (fun t => t.dt == { value := 30, stamp := 1 } && t.st == start.st) = true := by decide
theorem test_TM12_ldST : afterWord 0xF018 ({ start with inputs := atTime 2 }.regs [(0, 2)])
    (fun t => t.st == { value := 2, stamp := 2 } && !t.events.contains .audioSignal) = true := by decide +kernel

/-! ## The step around an instruction -/

theorem test_TM16_audio_before_unknown : afterWord 0x0000
    { start with st := { value := 2, stamp := 2 }, inputs := atTime (2001 / 1000) }
    (fun t => t.events == [.memRead 0x200, .memRead 0x201, .audioSignal] &&
      t.fault == some (.unknownOpcode 0x200 0 0) && t.faultKind == 4) = true := by decide +kernel
theorem test_TM15_no_audio : afterWord 0x00E0
    { start with st := { value := 2, stamp := 2 }, inputs := atTime (2040 / 1000) }
    (fun t => t.events == [.memRead 0x200, .memRead 0x201]) = true := by decide +kernel
theorem test_FE1_fetch_at_end : afterWord 0x1200 { start with pc := 4094 } (fun t => t.pc == 0x200) = true := by
  decide
theorem test_FE4_fetch_fault : (match step { start with pc := 0x10FE } with
    | .next t => t.fault == some (.memoryBoundsError 0x10FE none 0x10FE)
    | _ => false) = true := by decide
theorem test_load_error : (start.load 0x200 (List.replicate 3585 1)).fault = some (.loadError 0x200 3585) := by
  decide +kernel
theorem test_fontLen : Config.fontLen = 16 * Config.glyphBytes := by decide
theorem test_launch : (launch Config.conventionalFont [0x12, 0x00]).mem.read 79 = 0x80 ∧
    (launch Config.conventionalFont [0x12, 0x00]).mem.read 0x200 = 0x12 := by decide

/-! ## Witnesses: the hypotheses of each statement can be met, each clause at a boundary of its range -/

/-- Whether an instruction answers a next state with no fault latched. -/
def completes (s : State) (i : Instr) : Bool := after i s fun t => t.fault == none

/-- Whether an instruction answers a next state with a fault latched. -/
def faults (s : State) (i : Instr) : Bool := after i s fun t => t.fault != none

/-- A state in which every instruction completes: a call outstanding, key 0 pressed, I at 0x300. -/
def ready : State := { start with stack := [0x202], i := 0x300, inputs := pressing [0] }

/-- One instruction of each kind, rows 1 to 18 of R66. -/
def lowInstrs : List Instr :=
  [.cls, .ret, .jp 0x345, .call 0x345, .seImm 1 2, .sneImm 1 2, .seReg 1 2, .ldImm 1 2, .addImm 1 2, .ldReg 1 2,
    .orReg 1 2, .andReg 1 2, .xorReg 1 2, .addReg 1 2, .subReg 1 2, .shr 1 2, .subnReg 1 2, .shl 1 2]

/-- One instruction of each kind, rows 19 to 34 of R66. -/
def highInstrs : List Instr :=
  [.sneReg 1 2, .ldI 0x345, .jpV0 0x345, .rnd 1 2, .drw 1 2 3, .skp 1, .sknp 1, .ldVxDT 1, .ldVxK 1, .ldDT 1,
    .ldST 1, .addI 1, .ldF 1, .ldB 1, .storeRegs 1, .loadRegs 1]

/-- Memory with one byte at the last address. -/
def lastByte : Memory := [(4095, 7)]

/-- A state with no key pressed whose next instruction is FX0A. -/
def waiting : State := start.bytes 0x200 [0xF5, 0x0A]

/-- A state whose next instruction jumps to itself. -/
def idle : State := start.bytes 0x200 [0x12, 0x00]

theorem start_memWf (a : Nat) (bs : List Byte) (h : a + bs.length ≤ Config.memSize) : (start.bytes a bs).mem.wf :=
  Memory.wf_writeN Memory.wf_nil (.inr h)

theorem start_inv : start.Inv :=
  { memWf := Memory.wf_nil
    stackDepth := by decide
    stackRange := by simp [start, State.reset]
    pcRange := by decide
    clockOrigin := le_refl _
    dtStamp := le_refl _
    stStamp := le_refl _
    clockOrder := le_refl _ }

theorem witness_EncodeOfDecode : decodeWord 0xF1FF = .error (.unknownOpcode 0xF1 0xFF) ∧
    decodeWord 0x8AB4 = .ok (.addReg 10 11) := by decide

theorem witness_DecodeAcceptsTableRows :
    decodeWord 0xE39E = .ok (.skp 3) ∧ (∃ r ∈ opcodeTable, 0xE39E &&& r.mask = r.value) := by decide

theorem witness_DecodeRejectsIllFormedFields :
    (extractFields (highByte 0x800E) (lowByte 0x800E)).wf = true ∧
      (extractFields (highByte 0x800D) (lowByte 0x800D)).wf = false := by decide

/-- The longest load that fits, and one byte more. -/
theorem witness_LoadAllOrNothing :
    (4096 < 4095 + [(1 : Byte), 2].length) ∧ (4095 + [(1 : Byte)].length ≤ 4096 ∧ start.mem.wf) :=
  ⟨by decide, by decide, Memory.wf_nil⟩

theorem witness_LaunchPlacesImages :
    (List.replicate 3584 (7 : Byte)).length ≤ 3584 ∧ 79 < 80 ∧ 80 ≤ 0x1FF ∧ 0x1FF < 0x200 :=
  ⟨le_of_eq (List.length_replicate ..), by decide⟩

theorem witness_HaltedStepDoesNothing :
    (start.raise (.stackUnderflow 0x200 0x00EE)).fault = some (.stackUnderflow 0x200 0x00EE) := rfl

theorem witness_FetchBeyondMemoryFaults_low_byte :
    ({ start with pc := 4095 } : State).fault = none ∧ 4095 ≤ ({ start with pc := 4095 } : State).pc.toNat := by
  decide

theorem witness_FetchBeyondMemoryFaults_high_byte :
    ({ start with pc := 4096 } : State).fault = none ∧ 4095 ≤ ({ start with pc := 4096 } : State).pc.toNat := by
  decide

theorem witness_IllegalWordRaisesUnknownOpcode :
    ({ start with pc := 4094 } : State).fault = none ∧ ({ start with pc := 4094 } : State).pc.toNat ≤ 4094 ∧
      ({ start with pc := 4094 } : State).mem.read 4094 = 0 ∧
      ({ start with pc := 4094 } : State).mem.read 4095 = 0 ∧ (extractFields 0 0).wf = false := by decide

theorem witness_StepRunsDecodedInstruction : idle.fault = none ∧ idle.pc.toNat ≤ 4094 ∧
    idle.mem.read idle.pc.toNat = 0x12 ∧ idle.mem.read (idle.pc.toNat + 1) = 0x00 ∧
    decodePair 0x12 0x00 = .ok (.jp 0x200) ∧
    ∃ t, exec (.jp 0x200) { idle with
      events := [.memRead idle.pc.toNat, .memRead (idle.pc.toNat + 1)] ++
        (if 0 < (idle.st.remaining idle.inputs.timeAudio).toNat then [.audioSignal] else []) } = .next t :=
  ⟨by decide, by decide, by decide, by decide, by decide, _, rfl⟩

theorem witness_PlacedWordIsRun : start.fault = none ∧ start.pc.toNat ≤ 4094 ∧ start.mem.wf ∧
    decodeWord 0x00E0 = .ok .cls :=
  ⟨by decide, by decide, Memory.wf_nil, by decide⟩

theorem witness_AudioSignalExactlyWhileSounding : start.fault = none ∧ start.pc.toNat ≤ 4094 := by decide

/-- The signal is emitted in one state and not in another. -/
theorem witness_AudioSignalExactlyWhileSounding_both :
    0 < ((⟨2, 2⟩ : Timer).remaining (2001 / 1000)).toNat ∧ ¬ 0 < ((⟨2, 2⟩ : Timer).remaining (2040 / 1000)).toNat := by
  decide +kernel

theorem witness_ClockNeverGoesBack : idle.fault = none ∧ ∃ t, step idle = .next t ∧ t.fault = none :=
  ⟨by decide, _, rfl, by decide⟩

theorem witness_BusChecksBounds : 4095 < 4096 ∧ 4095 ≤ 4095 ∧ lastByte.wf := by decide

/-- P6: the stores of F155 land on the next instruction. -/
theorem witness_StoreSeenByNextFetch :
    ∃ t, (start.mem.wf ∧ ({ start with i := 0x202 } : State).i.toNat + (1 : Reg).val ≤ 4095) ∧
      exec (.storeRegs 1) { start with i := 0x202 } = .next t ∧ (1 : Reg).val = (0 : Reg).val + 1 ∧
      (1 : Reg) ≤ 1 ∧ t.pc.toNat = ({ start with i := 0x202 } : State).i.toNat + (0 : Reg).val :=
  ⟨_, ⟨Memory.wf_nil, by decide⟩, rfl, by decide, by decide, by decide⟩

theorem witness_ReturnPopsOrUnderflows : (start.calls 1).stack = 0x202 :: [] ∧ start.stack = [] := by decide

theorem witness_CallPushesOrOverflows : (start.calls 15).stack.length < 16 ∧ 16 ≤ (start.calls 16).stack.length := by
  decide

theorem witness_AddSetsCarry :
    (5 : Reg) ≠ 15 ∧ after (.addReg 5 6) (start.regs [(5, 0xFF), (6, 1)])
      (fun t => t.readReg 15 == 1 && t.readReg 5 == 0) = true ∧
    after (.addReg 5 6) (start.regs [(5, 0xFF), (6, 0)])
      (fun t => t.readReg 15 == 0 && t.readReg 5 == 0xFF) = true := by decide

/-- X apart from VF and X equal to VF, with a flag that is the one the clause asks for. -/
theorem witness_SubtractsSetNoBorrow :
    after (.subReg 1 2) (start.regs [(1, 7), (2, 7)]) (fun t => t.readReg 15 == 1 && t.readReg 1 == 0) = true ∧
    after (.subReg 15 1) (start.regs [(15, 5), (1, 3)]) (fun t => t.readReg 15 == 0xFE) = true ∧
    after (.subnReg 15 1) (start.regs [(15, 3), (1, 5)]) (fun t => t.readReg 15 == 4) = true := by decide

/-- The flag the clauses name exists for every register value. -/
theorem witness_ShiftsSetBitOut : (∃ f : Byte, f.toNat = (0xFF : Byte).toNat % 2) ∧
    ∃ f : Byte, f.toNat = (0xFF : Byte).toNat / 128 := ⟨⟨1, by decide⟩, ⟨1, by decide⟩⟩

/-- The highest I at which FX33 succeeds (R123). -/
theorem witness_BcdStoresDigits :
    start.mem.wf ∧ ({ start with i := 4093 } : State).i.toNat + 2 ≤ 4095 := ⟨Memory.wf_nil, by decide⟩

theorem witness_StoreRegsWritesRun : start.mem.wf ∧ ({ start with i := 4080 } : State).i.toNat + (15 : Reg).val ≤ 4095 :=
  ⟨Memory.wf_nil, by decide⟩

theorem witness_LoadRegsReadsRun : ({ start with i := 4095 } : State).i.toNat + (0 : Reg).val ≤ 4095 := by decide

/-- One byte beyond the end, for each of the four instructions. -/
theorem witness_DataAccessPastEndFaults :
    (0 < (Instr.ldB 0).dataBytes ∧ 4096 < 4094 + (Instr.ldB 0).dataBytes) ∧
    (0 < (Instr.storeRegs 1).dataBytes ∧ 4096 < 4095 + (Instr.storeRegs 1).dataBytes) ∧
    (0 < (Instr.loadRegs 0).dataBytes ∧ 4096 < 4096 + (Instr.loadRegs 0).dataBytes) ∧
    (0 < (Instr.drw 0 1 15).dataBytes ∧ 4096 < 4082 + (Instr.drw 0 1 15).dataBytes) := by decide

/-- Each of the four arms: the premises hold and the instruction answers a next state. -/
theorem witness_DataFaultLeavesOldOrNew : start.mem.wf ∧
    ([.ldB 0, .storeRegs 1, .loadRegs 1, .drw 0 1 15] : List Instr).all
      (fun i => 0 < i.dataBytes && 4096 < ({ start with i := 4095 } : State).i.toNat + i.dataBytes &&
        faults { start with i := 4095 } i) = true := ⟨Memory.wf_nil, by decide⟩

/-- No row where I points outside memory, and a sprite that ends at the last byte. -/
theorem witness_DrawCompletes : ((0 : RowCount).val = 0 ∨ (0x2000 : Nat) + (0 : RowCount).val ≤ 4096) ∧
    ((15 : RowCount).val = 0 ∨ 4081 + (15 : RowCount).val ≤ 4096) := by decide

theorem witness_DrawSpriteTogglesSpritePixels : (List.replicate 15 (0x80 : Byte)).length ≤ 15 := by decide

theorem witness_DrawTwiceRestores : (List.replicate 15 (0x80 : Byte)).length ≤ 15 := by decide

theorem witness_KeypadAnswers : (15 : Byte).toNat < 16 ∧ 16 ≤ (16 : Byte).toNat ∧ 16 ≤ (255 : Byte).toNat := by decide

theorem witness_KeyWaitTakesLowestKey_first : (pressing [0, 15]).keys.get 0 = true ∧
    ∀ j : Fin 16, j < 0 → (pressing [0, 15]).keys.get j = false := by decide

theorem witness_KeyWaitTakesLowestKey_last : (pressing [15]).keys.get 15 = true ∧
    ∀ j : Fin 16, j < 15 → (pressing [15]).keys.get j = false := by decide

theorem witness_KeyWaitTakesLowestKey_none : ∀ k : Fin 16, quiet.keys.get k = false := by decide

theorem witness_AwaitingKeyWaits :
    waiting.AwaitingKey ∧ ∀ k : Fin 16, waiting.inputs.keys.get k = false :=
  ⟨⟨rfl, 0xF50A, by decide, by decide⟩, by decide⟩

theorem witness_RemainingDecaysAtSixtyHertz :
    (⟨30, 1⟩ : Timer).stamp ≤ 1 ∧ (1 : Time) ≤ 1250 / 1000 ∧
      ((⟨30, 1⟩ : Timer).remaining (1250 / 1000)).toNat = 15 := by decide +kernel

theorem witness_StackTouchedOnlyByCallAndReturn :
    ∃ t, exec (.jp 0x345) start = .next t ∧ Instr.jp 0x345 ≠ .ret ∧ ∀ nnn, Instr.jp 0x345 ≠ .call nnn :=
  ⟨_, rfl, by decide, nofun⟩

theorem witness_FramebufferTouchedOnlyByClearAndDraw :
    ∃ t, exec (.jp 0x345) start = .next t ∧ Instr.jp 0x345 ≠ .cls ∧ ∀ x y n, Instr.jp 0x345 ≠ .drw x y n :=
  ⟨_, rfl, by decide, nofun⟩

theorem witness_TimersTouchedOnlyBySets :
    ∃ t, exec (.ldST 1) start = .next t ∧ ∀ x, Instr.ldST 1 ≠ .ldDT x :=
  ⟨_, rfl, nofun⟩

theorem witness_TimersTouchedOnlyBySets_sound :
    ∃ t, exec (.ldDT 1) start = .next t ∧ ∀ x, Instr.ldDT 1 ≠ .ldST x :=
  ⟨_, rfl, nofun⟩

/-- Just below and just above the stored run. -/
theorem witness_MemoryChangedOnlyInStoredRun :
    ∃ t, exec (.storeRegs 1) ready = .next t ∧ 0x2FF < ready.i.toNat ∧
      ready.i.toNat + (Instr.storeRegs 1).storedBytes ≤ 0x302 :=
  ⟨_, rfl, by decide, by decide⟩

theorem witness_IndexAboveMemoryOnlyByAdd :
    ∃ t, exec (.ldDT 1) { start with i := 4095 } = .next t ∧ (∀ nnn, Instr.ldDT 1 ≠ .ldI nnn) ∧
      (∀ x, Instr.ldDT 1 ≠ .addI x) ∧ (∀ x, Instr.ldDT 1 ≠ .ldF x) ∧ ({ start with i := 4095 } : State).i.toNat ≤ 4095 :=
  ⟨_, rfl, nofun, nofun, nofun, by decide⟩

theorem witness_RegistersOutsideTableKept :
    ∃ t, exec (.subReg 1 2) start = .next t ∧ ¬ (Instr.subReg 1 2).writesReg 2 :=
  ⟨_, rfl, by unfold Instr.writesReg; decide⟩

/-- Every arm: every instruction answers a next state with no fault latched. -/
theorem witness_PcAfterInstruction : ready.fault = none ∧ (lowInstrs ++ highInstrs).all (completes ready) = true := by decide

/-- The two ways FX0A can end. -/
theorem witness_PcAfterInstruction_keyWait :
    (∃ k, ready.inputs.keys.get k = true) ∧ completes start (.ldVxK 1) = true ∧
      ∀ k, start.inputs.keys.get k = false := by decide

/-- Each of the three causes, at its boundary. -/
theorem witness_FaultsExactlyWhenListed : start.fault = none ∧ faults start .ret = true ∧
    faults (start.calls 16) (.call 0x345) = true ∧ completes (start.calls 15) (.call 0x345) = true ∧
    faults { start with i := 4095 } (.storeRegs 1) = true ∧
    completes { start with i := 4095 } (.storeRegs 0) = true := by decide

theorem witness_FinishedRunStays : idle.Finished :=
  ⟨rfl, 0x1200, by decide, by decide, by decide⟩

theorem witness_StepKeepsInvariant : start.Inv ∧ ∃ t, step start = .next t := ⟨start_inv, _, rfl⟩

/-- With an instruction that executes, too. -/
theorem witness_StepKeepsInvariant_runs : idle.Inv ∧ ∃ t, step idle = .next t ∧ t.fault = none :=
  ⟨{ start_inv with memWf := start_memWf 0x200 [0x12, 0x00] (by decide) }, _, rfl, by decide⟩

theorem witness_ReachableStatesMeetInvariant : Reachable (launch Config.conventionalFont [0x12, 0x00]) :=
  ⟨false, .load _ _ _ (.load _ _ _ .reset)⟩

end Sys2Proof.Machine
end

section
/-! # The state of the CORE (10_state.md)

What reset leaves, how a timer decays, which pieces of state an instruction can change at all, and how it leaves I,
the general registers and PC. -/

namespace Sys2Proof.Machine

/-! ## Reset (10_state.md R35) -/

/-- Settles O6: field by field; the empty memory list reads 0 everywhere. -/
theorem resetState : Obligations.ResetState := by
  unfold Obligations.ResetState
  have hregs (k : Reg) : State.reset.readReg k = 0 := by
    simp [State.readReg, State.reset, Vector.get_eq_getElem]
  exact ⟨hregs, rfl, rfl, rfl, rfl, rfl, Framebuffer.pixel_blank, fun _ => rfl, rfl⟩

/-- Settles O58: memory and stack are empty, and the inputs are drawn with clock samples in order from the origin. -/
theorem resetMeetsInvariant : Obligations.ResetMeetsInvariant where
  memWf := Memory.wf_nil
  stackDepth := Nat.zero_le 16
  stackRange := by simp [State.reset]
  pcRange := by decide
  clockOrigin := Inputs.draw_since 0 0
  dtStamp := Inputs.draw_since 0 0
  stStamp := Inputs.draw_since 0 0
  clockOrder := Inputs.draw_order 0 0

/-! ## Timers (10_state.md R25 to R28) -/

/-- Settles O47: both arms have one way to end. -/
theorem timersAreSetTogether : Obligations.TimersAreSetTogether :=
  fun _ _ => ⟨rfl, rfl⟩

/-- For an instant not before the stamp, the ticks elapsed are the floor R27 writes. -/
theorem elapsedTicks_eq_floor {stamp t : Time} (h : stamp ≤ t) :
    (elapsedTicks stamp t : Int) = ⌊(t - stamp) * 60⌋ :=
  Int.toNat_of_nonneg (Int.floor_nonneg.2 (mul_nonneg (sub_nonneg.2 h) (by decide)))

/-- Time does not take ticks back (R28). -/
theorem elapsedTicks_mono (stamp : Time) {t t' : Time} (h : t ≤ t') :
    elapsedTicks stamp t ≤ elapsedTicks stamp t' :=
  Int.toNat_le_toNat (Int.floor_mono (mul_le_mul_of_nonneg_right (sub_le_sub_right h stamp) (by decide)))

/-- Settles O48: the remaining value is the value less the ticks elapsed, which are R27's floor and grow with time. -/
theorem remainingDecaysAtSixtyHertz : Obligations.RemainingDecaysAtSixtyHertz := by
  intro T t t' hstamp hle
  have hticks := elapsedTicks_eq_floor hstamp
  have hmono := elapsedTicks_mono T.stamp hle
  rw [T.remaining_toNat, T.remaining_toNat]
  omega

/-! ## Which pieces of state an instruction can change -/

/-- `s` with the pieces of state that `i` can change, a fault taken among its ends, as they are in `t`. -/
def State.changedBy (s : State) (i : Instr) (t : State) : State :=
  match i with
  | .cls => { s with fb := t.fb, pc := t.pc }
  | .drw _ _ _ => { s with v := t.v, fb := t.fb, pc := t.pc, fault := t.fault, events := t.events }
  | .ret | .call _ => { s with stack := t.stack, pc := t.pc, fault := t.fault }
  | .jp _ | .jpV0 _ | .seImm _ _ | .sneImm _ _ | .seReg _ _ | .sneReg _ _ => { s with pc := t.pc }
  | .skp _ | .sknp _ => { s with pc := t.pc, events := t.events }
  | .ldI _ | .addI _ | .ldF _ => { s with i := t.i, pc := t.pc }
  | .ldDT _ => { s with dt := t.dt, pc := t.pc, events := t.events }
  | .ldST _ => { s with st := t.st, pc := t.pc, events := t.events }
  | .ldB _ | .storeRegs _ => { s with mem := t.mem, pc := t.pc, fault := t.fault, events := t.events }
  | .loadRegs _ => { s with v := t.v, pc := t.pc, fault := t.fault, events := t.events }
  | .rnd _ _ | .ldVxDT _ | .ldVxK _ => { s with v := t.v, pc := t.pc, events := t.events }
  | .ldImm _ _ | .addImm _ _ | .ldReg _ _ | .orReg _ _ | .andReg _ _ | .xorReg _ _ | .addReg _ _ | .subReg _ _
  | .shr _ _ | .subnReg _ _ | .shl _ _ => { s with v := t.v, pc := t.pc }

/-- A run of stores changes memory, PC, the fault latch and the trace only. -/
theorem storeBytes_frame (instr : Instr) (bytes : List Byte) (s : State) :
    storeBytes instr bytes s =
      { s with
        mem := (storeBytes instr bytes s).mem
        pc := (storeBytes instr bytes s).pc
        fault := (storeBytes instr bytes s).fault
        events := (storeBytes instr bytes s).events } := by
  unfold storeBytes
  split <;> rfl

/-- Every instruction changes only the pieces of state named for it. -/
theorem exec_frame {i : Instr} {s t : State} (h : exec i s = .next t) : t = s.changedBy i t := by
  cases i with
  | ret => obtain ⟨a, rest, -, rfl⟩ | ⟨-, rfl⟩ := execRet_cases h <;> rfl
  | call nnn => obtain ⟨-, rfl⟩ | ⟨-, rfl⟩ := execCall_cases h <;> rfl
  | drw x y n => obtain ⟨-, b, -, rfl⟩ | ⟨-, -, rfl⟩ := execDrw_cases h <;> rfl
  | loadRegs x => obtain ⟨-, rfl⟩ | ⟨-, rfl⟩ := execLoadRegs_cases h <;> rfl
  | ldVxK x => obtain ⟨k, -, rfl⟩ | ⟨-, rfl⟩ := execLdVxK_cases h <;> rfl
  | ldB x => cases execLdB_eq h; exact storeBytes_frame ..
  | storeRegs x => cases execStoreRegs_eq h; exact storeBytes_frame ..
  | _ => cases h; rfl

section
variable {i : Instr} {s t : State} (h : exec i s = .next t)
include h

theorem exec_stack_eq (hret : i ≠ .ret) (hcall : ∀ nnn, i ≠ .call nnn) : t.stack = s.stack := by
  have hframe := exec_frame h
  cases i with
  | ret => exact absurd rfl hret
  | call nnn => exact absurd rfl (hcall nnn)
  | _ => exact (congrArg State.stack hframe :)

theorem exec_fb_eq (hcls : i ≠ .cls) (hdrw : ∀ x y n, i ≠ .drw x y n) : t.fb = s.fb := by
  have hframe := exec_frame h
  cases i with
  | cls => exact absurd rfl hcls
  | drw x y n => exact absurd rfl (hdrw x y n)
  | _ => exact (congrArg State.fb hframe :)

theorem exec_dt_eq (hset : ∀ x, i ≠ .ldDT x) : t.dt = s.dt := by
  have hframe := exec_frame h
  cases i with
  | ldDT x => exact absurd rfl (hset x)
  | _ => exact (congrArg State.dt hframe :)

theorem exec_st_eq (hset : ∀ x, i ≠ .ldST x) : t.st = s.st := by
  have hframe := exec_frame h
  cases i with
  | ldST x => exact absurd rfl (hset x)
  | _ => exact (congrArg State.st hframe :)

theorem exec_inputs_eq : t.inputs = s.inputs := by
  have hframe := exec_frame h
  cases i <;> exact (congrArg State.inputs hframe :)

theorem exec_draws_eq : t.draws = s.draws := by
  have hframe := exec_frame h
  cases i <;> exact (congrArg State.draws hframe :)

theorem exec_i_eq (hld : ∀ nnn, i ≠ .ldI nnn) (hadd : ∀ x, i ≠ .addI x) (hfont : ∀ x, i ≠ .ldF x) : t.i = s.i := by
  have hframe := exec_frame h
  cases i with
  | ldI nnn => exact absurd rfl (hld nnn)
  | addI x => exact absurd rfl (hadd x)
  | ldF x => exact absurd rfl (hfont x)
  | _ => exact (congrArg State.i hframe :)

end

/-- Settles O49: every other frame leaves the stack out. -/
theorem stackTouchedOnlyByCallAndReturn : Obligations.StackTouchedOnlyByCallAndReturn :=
  fun _ _ _ h => exec_stack_eq h

/-- Settles O50: every other frame leaves the framebuffer out. -/
theorem framebufferTouchedOnlyByClearAndDraw : Obligations.FramebufferTouchedOnlyByClearAndDraw :=
  fun _ _ _ h => exec_fb_eq h

/-- Settles O51: one frame holds each timer, and none the inputs or the counter. -/
theorem timersTouchedOnlyBySets : Obligations.TimersTouchedOnlyBySets :=
  fun _ _ _ h => ⟨exec_dt_eq h, exec_st_eq h, exec_inputs_eq h, exec_draws_eq h⟩

/-! ## The index register (10_state.md R16, R17) -/

@[simp] theorem zext16_toNat_addr (nnn : Addr12) : (zext16 nnn).toNat = nnn.toNat :=
  BitVec.toNat_setWidth_of_le (by decide)

@[simp] theorem zext16_toNat_byte (b : Byte) : (zext16 b).toNat = b.toNat :=
  BitVec.toNat_setWidth_of_le (by decide)

/-- The product of FX29 does not wrap (R122). -/
theorem glyphAddress_toNat (b : Byte) : (glyphAddress b).toNat = b.toNat * 5 := by
  have := b.isLt
  simp only [glyphAddress, BitVec.toNat_mul, zext16_toNat_byte, Config.glyphBytes, BitVec.toNat_ofNat]
  omega

/-- Settles O53: ANNN writes a 12-bit address, FX29 at most 255 * 5, and every instruction but these and FX1E keeps
I. -/
theorem indexAboveMemoryOnlyByAdd : Obligations.IndexAboveMemoryOnlyByAdd := by
  intro i s t h
  refine ⟨exec_i_eq h, fun hadd hs => ?_⟩
  cases i with
  | ldI nnn =>
    cases h
    have := nnn.isLt
    simp only [State.fallThrough_i, State.writeI_i, zext16_toNat_addr]
    omega
  | ldF x =>
    cases h
    have := (s.readReg x).isLt
    simp only [State.fallThrough_i, State.writeI_i, glyphAddress_toNat]
    omega
  | addI x => exact absurd rfl (hadd x)
  | _ => rw [exec_i_eq h nofun nofun nofun]; exact hs

/-! ## The general registers (10_state.md R13, R15) -/

/-- A load of `n` bytes leaves the registers from `n` on alone. -/
theorem loadedRegs_get_of_length_le (v : Vector Byte 16) {bytes : List Byte} {k : Reg} (h : bytes.length ≤ k.val) :
    (loadedRegs v bytes).get k = v.get k := by
  rw [loadedRegs_get, List.getD_eq_default _ _ h]

/-- A faulting FX65 leaves the registers above Vx alone. -/
theorem State.faultLoadedRegs_get_of_lt (s : State) {x k : Reg} (h : x < k) :
    (s.faultLoadedRegs x).get k = s.v.get k := by
  simp [State.faultLoadedRegs, Vector.get_eq_getElem, h.not_ge]

/-- Settles O54: a write to Vx or VF keeps every other register, FX65 those above Vx, and the frames of the
instructions outside the table leave the register file out. -/
theorem registersOutsideTableKept : Obligations.RegistersOutsideTableKept := by
  intro i s t k h hk
  have hframe := exec_frame h
  cases i with
  | ldImm x _ | addImm x _ | ldReg x _ | orReg x _ | andReg x _ | xorReg x _ | rnd x _ | ldVxDT x =>
    cases h
    exact (State.readReg_writeReg ..).trans (if_neg hk)
  | addReg x _ | subReg x _ | shr x _ | subnReg x _ | shl x _ =>
    obtain ⟨hx, hf : k ≠ regF⟩ := not_or.1 hk
    cases h
    simp only [State.readReg_fallThrough, State.writeFlagThen_eq, State.readReg_writeReg, State.readReg_setFlag,
      if_neg hx, if_neg hf]
  | drw x y n =>
    obtain ⟨-, b, -, rfl⟩ | ⟨-, -, rfl⟩ := execDrw_cases h <;>
      exact (s.readReg_writeReg regF k _).trans (if_neg hk)
  | ldVxK x =>
    obtain ⟨key, -, rfl⟩ | ⟨-, rfl⟩ := execLdVxK_cases h
    · exact (s.readReg_writeReg x k _).trans (if_neg hk)
    · rfl
  | loadRegs x =>
    have hxk : x < k := not_le.1 hk
    obtain ⟨-, rfl⟩ | ⟨-, rfl⟩ := execLoadRegs_cases h
    · exact loadedRegs_get_of_length_le _ (by simpa using hxk)
    · exact s.faultLoadedRegs_get_of_lt hxk
  | _ => exact (congrArg (State.readReg · k) hframe :)

/-! ## The program counter (10_state.md R19) -/

/-- A run of stores that latches no fault moves PC on by 2. -/
theorem storeBytes_pc_of_fault_eq_none {instr : Instr} {bytes : List Byte} {s : State}
    (h : (storeBytes instr bytes s).fault = none) : (storeBytes instr bytes s).pc = s.pc + 2 := by
  unfold storeBytes at h ⊢
  split at h
  · rfl
  · cases h

/-- FX0A finds no key exactly when none of the sixteen is pressed (R143). -/
theorem Inputs.lowestKey_eq_none {inp : Inputs} : inp.lowestKey = none ↔ ∀ k, inp.keys.get k = false := by
  rw [Inputs.lowestKey, Inputs.lowestKeyFrom_eq_none]
  constructor
  · intro h k
    rw [← Inputs.keyPressed_low]
    exact h k (Nat.zero_le _) (by omega)
  · intro h k _ hk
    exact (inp.keyPressed_low ⟨k, by omega⟩).trans (h _)

/-- FX0A moves PC on by 2 if some key is pressed, and else leaves it (R143). -/
theorem execLdVxK_pc {s t : State} {x : Reg} (h : exec (.ldVxK x) s = .next t) :
    ((∃ k, s.inputs.keys.get k = true) → t.pc = s.pc + 2) ∧
      ((∀ k, s.inputs.keys.get k = false) → t.pc = s.pc) := by
  obtain ⟨key, hkey, rfl⟩ | ⟨hnone, rfl⟩ := execLdVxK_cases h
  · refine ⟨fun _ => rfl, fun hall => ?_⟩
    rw [Inputs.lowestKey_eq_none.2 hall] at hkey
    cases hkey
  · refine ⟨fun ⟨k, hk⟩ => ?_, fun _ => rfl⟩
    rw [Inputs.lowestKey_eq_none.1 hnone k] at hk
    cases hk

/-- `NNN + V0` does not wrap (R93). -/
theorem zext16_add_toNat (nnn : Addr12) (b : Byte) : (zext16 nnn + zext16 b).toNat = nnn.toNat + b.toNat := by
  have := nnn.isLt
  have := b.isLt
  rw [BitVec.toNat_add, zext16_toNat_addr, zext16_toNat_byte]
  omega

/-- A skip on the negated condition (R141). -/
theorem State.skipIf_not_pc (s : State) (c : Bool) :
    (s.skipIf !c).pc = if c = true then s.pc + 2 else s.pc + 4 := by
  cases c <;> rfl

/-- Settles O55: jumps, call and return set PC, a skip and FX0A choose, a fault is excluded, and all the others fall
through. -/
theorem pcAfterInstruction : Obligations.PcAfterInstruction := by
  intro i s t _ h ht
  cases i with
  | jp nnn => cases h; exact zext16_toNat_addr nnn
  | jpV0 nnn => cases h; exact zext16_add_toNat ..
  | call nnn =>
    obtain ⟨-, rfl⟩ | ⟨-, rfl⟩ := execCall_cases h
    · exact ⟨zext16_toNat_addr nnn, rfl⟩
    · cases ht
  | ret =>
    obtain ⟨a, rest, hstack, rfl⟩ | ⟨-, rfl⟩ := execRet_cases h
    · exact hstack
    · cases ht
  | seImm | sneImm | seReg | sneReg | skp => cases h; simp
  | sknp x => cases h; exact State.skipIf_not_pc ..
  | ldVxK x => exact execLdVxK_pc h
  | drw x y n =>
    obtain ⟨-, b, -, rfl⟩ | ⟨-, -, rfl⟩ := execDrw_cases h
    · rfl
    · cases ht
  | loadRegs x =>
    obtain ⟨-, rfl⟩ | ⟨-, rfl⟩ := execLoadRegs_cases h
    · rfl
    · cases ht
  | ldB x => cases execLdB_eq h; exact storeBytes_pc_of_fault_eq_none ht
  | storeRegs x => cases execStoreRegs_eq h; exact storeBytes_pc_of_fault_eq_none ht
  | _ => cases h; rfl

end Sys2Proof.Machine
end

section
/-! # Memory (20_memory.md)

The bus, loads, what an instruction stores and what fetch then reads, and the invariant every step keeps. -/

namespace Sys2Proof.Machine

/-! ## The invariant (20_memory.md R40, 10_state.md R20 to R22, R25)

One lemma per clause that `exec` can touch; the clauses on the clock come from the draw of the next inputs. -/

section
variable {s : State}

/-- The address of the next instruction does not wrap (R19). -/
theorem State.pc_add_two_toNat (hpc : s.pc.toNat ≤ 4094) : (s.pc + 2).toNat = s.pc.toNat + 2 := by
  bv_omega

theorem State.skipIf_pc_toNat_le (hpc : s.pc.toNat ≤ 4094) (c : Bool) : (s.skipIf c).pc.toNat ≤ 4098 := by
  rw [State.skipIf_pc]
  split <;> bv_omega

/-- Whichever PC a data fault leaves (R162), it is at most the next instruction's. -/
theorem State.faultPc_toNat_le (hpc : s.pc.toNat ≤ 4094) : s.faultPc.toNat ≤ 4096 := by
  have hnext := State.pc_add_two_toNat hpc
  unfold State.faultPc
  split <;> omega

theorem storeBytes_pc_toNat_le (instr : Instr) (bytes : List Byte) (hpc : s.pc.toNat ≤ 4094) :
    (storeBytes instr bytes s).pc.toNat ≤ 4096 := by
  unfold storeBytes
  split
  · exact (State.pc_add_two_toNat hpc).trans_le (Nat.add_le_add_right hpc 2)
  · exact State.faultPc_toNat_le hpc

/-- A run of stores, faulting or not, keeps the canonical form. -/
theorem storeBytes_wf (instr : Instr) {bytes : List Byte} (hn : bytes ≠ []) (hm : s.mem.wf) :
    (storeBytes instr bytes s).mem.wf := by
  obtain ⟨hfit, heq⟩ | ⟨-, heq⟩ := storeBytes_cases instr s hn <;> rw [heq]
  · exact Memory.wf_writeN hm (.inr hfit)
  · exact Memory.wf_writeSome _ hm

theorem State.regsUpTo_ne_nil (s : State) (x : Reg) : s.regsUpTo x ≠ [] :=
  List.ne_nil_of_length_pos (by rw [State.regsUpTo_length]; omega)

end

section
variable {i : Instr} {s t : State} (h : exec i s = .next t)
include h

theorem exec_mem_eq (hbcd : ∀ x, i ≠ .ldB x) (hstore : ∀ x, i ≠ .storeRegs x) : t.mem = s.mem := by
  have hframe := exec_frame h
  cases i with
  | ldB x => exact absurd rfl (hbcd x)
  | storeRegs x => exact absurd rfl (hstore x)
  | _ => exact (congrArg State.mem hframe :)

theorem exec_memWf (hm : s.mem.wf) : t.mem.wf := by
  cases i with
  | ldB x => cases execLdB_eq h; exact storeBytes_wf _ (List.cons_ne_nil _ _) hm
  | storeRegs x => cases execStoreRegs_eq h; exact storeBytes_wf _ (s.regsUpTo_ne_nil x) hm
  | _ => rw [exec_mem_eq h nofun nofun]; exact hm

theorem exec_stack_length_le (hdepth : s.stack.length ≤ 16) : t.stack.length ≤ 16 := by
  cases i with
  | ret =>
    obtain ⟨a, rest, hstack, rfl⟩ | ⟨-, rfl⟩ := execRet_cases h
    · rw [hstack, List.length_cons] at hdepth
      exact Nat.le_of_succ_le hdepth
    · exact hdepth
  | call nnn =>
    obtain ⟨hroom, rfl⟩ | ⟨-, rfl⟩ := execCall_cases h
    · exact hroom
    · exact hdepth
  | _ => rw [exec_stack_eq h nofun nofun]; exact hdepth

/-- Every return address left is an old one or the address after the call (R22). -/
theorem exec_stack_mem {a : Word} (ha : a ∈ t.stack) : a ∈ s.stack ∨ a = s.pc + 2 := by
  cases i with
  | ret =>
    obtain ⟨b, rest, hstack, rfl⟩ | ⟨-, rfl⟩ := execRet_cases h
    · exact .inl (hstack ▸ List.mem_cons_of_mem b ha)
    · exact .inl ha
  | call nnn =>
    obtain ⟨-, rfl⟩ | ⟨-, rfl⟩ := execCall_cases h
    · exact (List.mem_cons.1 ha).symm
    · exact .inl ha
  | _ => rw [exec_stack_eq h nofun nofun] at ha; exact .inl ha

/-- The greatest PC any rule writes is BNNN's 0xFFF + 0xFF (R20). -/
theorem exec_pc_toNat_le (hpc : s.pc.toNat ≤ 4094) (hstack : ∀ a ∈ s.stack, a.toNat ≤ 4096) :
    t.pc.toNat ≤ 0x10FE := by
  have hnext : (s.pc + 2).toNat ≤ 0x10FE := by
    rw [State.pc_add_two_toNat hpc]
    omega
  have hfault : s.faultPc.toNat ≤ 0x10FE := (State.faultPc_toNat_le hpc).trans (by decide)
  have hjump (nnn : Addr12) : (zext16 nnn).toNat ≤ 0x10FE := by
    have := nnn.isLt
    rw [zext16_toNat_addr]
    omega
  cases i with
  | jp nnn => cases h; exact hjump nnn
  | jpV0 nnn =>
    cases h
    have := nnn.isLt
    have := (s.readReg 0).isLt
    rw [State.setPc_pc, zext16_add_toNat]
    omega
  | call nnn =>
    obtain ⟨-, rfl⟩ | ⟨-, rfl⟩ := execCall_cases h
    · exact hjump nnn
    · exact hpc.trans (by decide)
  | ret =>
    obtain ⟨a, rest, hs, rfl⟩ | ⟨-, rfl⟩ := execRet_cases h
    · exact (hstack a (hs ▸ List.mem_cons_self)).trans (by decide)
    · exact hpc.trans (by decide)
  | seImm | sneImm | seReg | sneReg | skp | sknp =>
    cases h
    exact (State.skipIf_pc_toNat_le hpc _).trans (by decide)
  | drw x y n =>
    obtain ⟨-, b, -, rfl⟩ | ⟨-, -, rfl⟩ := execDrw_cases h
    · exact hnext
    · exact hfault
  | loadRegs x =>
    obtain ⟨-, rfl⟩ | ⟨-, rfl⟩ := execLoadRegs_cases h
    · exact hnext
    · exact hfault
  | ldB x => cases execLdB_eq h; exact (storeBytes_pc_toNat_le _ _ hpc).trans (by decide)
  | storeRegs x => cases execStoreRegs_eq h; exact (storeBytes_pc_toNat_le _ _ hpc).trans (by decide)
  | ldVxK x =>
    obtain ⟨key, -, rfl⟩ | ⟨-, rfl⟩ := execLdVxK_cases h
    · exact hnext
    · exact hpc.trans (by decide)
  | _ => cases h; exact hnext

theorem exec_dt_stamp_le (hdt : s.dt.stamp ≤ s.inputs.timeExec) : t.dt.stamp ≤ s.inputs.timeExec := by
  cases i with
  | ldDT x => cases h; exact le_refl _
  | _ => rw [exec_dt_eq h nofun]; exact hdt

theorem exec_st_stamp_le (hst : s.st.stamp ≤ s.inputs.timeExec) : t.st.stamp ≤ s.inputs.timeExec := by
  cases i with
  | ldST x => cases h; exact le_refl _
  | _ => rw [exec_st_eq h nofun]; exact hst

end

/-- The invariant reads neither the fault latch nor the trace. -/
theorem State.Inv.with_fault_events {s : State} (hs : s.Inv) (f : Option Fault) (es : List Event) :
    { s with fault := f, events := es }.Inv :=
  ⟨hs.memWf, hs.stackDepth, hs.stackRange, hs.pcRange, hs.clockOrigin, hs.dtStamp, hs.stStamp, hs.clockOrder⟩

/-- An instruction executed at a PC that can be fetched from, and the draw after it, keep the invariant. -/
theorem State.Inv.exec_nextInputs {i : Instr} {s t : State} (hs : s.Inv) (hpc : s.pc.toNat ≤ 4094)
    (h : exec i s = .next t) : t.nextInputs.Inv := by
  have hclock : s.inputs.timeExec ≤ t.nextInputs.inputs.timeAudio := by
    rw [← exec_inputs_eq h, State.nextInputs_inputs]
    exact Inputs.draw_since ..
  exact {
    memWf := by
      rw [State.nextInputs_mem]
      exact exec_memWf h hs.memWf
    stackDepth := by
      rw [State.nextInputs_stack]
      exact exec_stack_length_le h hs.stackDepth
    stackRange := by
      rw [State.nextInputs_stack]
      intro a ha
      obtain hold | rfl := exec_stack_mem h ha
      · exact hs.stackRange a hold
      · rw [State.pc_add_two_toNat hpc]
        omega
    pcRange := by
      rw [State.nextInputs_pc]
      exact exec_pc_toNat_le h hpc fun a ha => (hs.stackRange a ha).2
    clockOrigin := (hs.clockOrigin.trans hs.clockOrder).trans hclock
    dtStamp := by
      rw [State.nextInputs_dt]
      exact (exec_dt_stamp_le h (hs.dtStamp.trans hs.clockOrder)).trans hclock
    stStamp := by
      rw [State.nextInputs_st]
      exact (exec_st_stamp_le h (hs.stStamp.trans hs.clockOrder)).trans hclock
    clockOrder := by
      rw [State.nextInputs_inputs]
      exact Inputs.draw_order .. }

/-- Settles O59: a halted step keeps the state, the two faults before execution change only the latch and the trace,
and an executed instruction keeps each clause. -/
theorem stepKeepsInvariant : Obligations.StepKeepsInvariant := by
  intro s t hs h
  obtain ⟨-, rfl⟩ | ⟨-, -, rfl⟩ | ⟨-, -, -, rfl⟩ | ⟨-, hpc, i, u, -, hexec, rfl⟩ := step_cases h
  · exact hs
  · exact hs.with_fault_events ..
  · exact hs.with_fault_events ..
  · have hle : s.pc.toNat ≤ 4094 := Nat.le_of_lt_succ (Nat.lt_of_succ_lt_succ hpc)
    exact (hs.with_fault_events s.fault s.afterFetch.events).exec_nextInputs hle hexec

/-! ## The bus (20_memory.md R41, R42) -/

@[simp] theorem busWrite_of_lt {a : Nat} (m : Memory) (b : Byte) (h : a < Config.memSize) :
    busWrite m a b = .ok (m.write a b) := if_pos h

@[simp] theorem busWrite_of_ge {a : Nat} (m : Memory) (b : Byte) (h : Config.memSize ≤ a) :
    busWrite m a b = .error a := if_neg h.not_gt

/-- Settles O17: 4095 is the last address of the bus, and a write is `Memory.write`. -/
theorem busChecksBounds : Obligations.BusChecksBounds := by
  intro m a b
  refine ⟨fun ha => ⟨busRead_of_ge m ha, busWrite_of_ge m b ha⟩, fun ha => ?_⟩
  have hlt : a < Config.memSize := Nat.lt_succ_of_le ha
  exact ⟨busRead_of_lt m hlt, m.write a b, busWrite_of_lt m b hlt,
    fun hm => ⟨Memory.wf_write hm hlt b, Memory.read_write_same hm a b⟩,
    fun j hj => Memory.read_write_other m b hj⟩

/-! ## Loads (20_memory.md R52, 60_exceptions.md R167) -/

theorem State.load_of_gt {offset : Nat} {bytes : List Byte} (s : State)
    (h : Config.memSize < offset + bytes.length) :
    s.load offset bytes = s.raise (s.fault.getD (.loadError offset bytes.length)) := if_pos h

theorem State.load_of_le {offset : Nat} {bytes : List Byte} (s : State)
    (h : offset + bytes.length ≤ Config.memSize) :
    s.load offset bytes = { s with mem := s.mem.writeN offset bytes } := if_neg h.not_gt

/-- Settles O8: an image that fits is one run of writes. -/
theorem loadAllOrNothing : Obligations.LoadAllOrNothing := by
  intro s offset bytes
  refine ⟨s.load_of_gt, fun hfit hm => ⟨_, s.load_of_le hfit, rfl, fun k hk => ?_, fun a ha => ?_⟩⟩
  · exact Memory.read_writeN hm hk hfit
  · exact Memory.read_writeN_other s.mem ha

/-! ## Fetch after a store (20_memory.md R43, R49, 40_step_cycle.md R80, R84) -/

/-- A step that fetches the bytes of an instruction runs it. -/
theorem step_of_fetch {s : State} {high low : Byte} {i : Instr} (hf : s.fault = none)
    (hfetch : s.fetch = .ok (high, low)) (hdec : decodePair high low = .ok i) :
    step s = endStep (exec i s.afterFetch) := by
  simp only [step, hf, hfetch, hdec]

@[simp] theorem State.withFetchWord_pc (s : State) (nbits w : Nat) : (s.withFetchWord nbits w).pc = s.pc := rfl

theorem State.withFetchWord_mem (s : State) (w : Word) :
    (s.withFetchWord 16 w.toNat).mem = s.mem.writeN s.pc.toNat (wordBytes w) := by
  rw [State.withFetchWord, Nat.mod_eq_of_lt w.isLt, BitVec.ofNat_toNat, BitVec.setWidth_eq]

/-- Fetch reads a placed word, its high byte first (R43). -/
theorem State.fetch_withFetchWord {s : State} (hm : s.mem.wf) (hpc : s.pc.toNat ≤ 4094) (w : Word) :
    (s.withFetchWord 16 w.toNat).fetch = .ok (highByte w, lowByte w) := by
  have hfit : s.pc.toNat + (wordBytes w).length ≤ Config.memSize := Nat.add_le_add_right hpc 2
  have hhigh := Memory.read_writeN hm (bs := wordBytes w) Nat.zero_lt_two hfit
  have hlow := Memory.read_writeN hm (bs := wordBytes w) Nat.one_lt_two hfit
  rw [State.fetch_ok (s := s.withFetchWord 16 w.toNat) hfit, State.withFetchWord_mem, State.withFetchWord_pc]
  exact congrArg Except.ok (Prod.ext hhigh hlow)

/-- Settles O14: fetch reads the placed word, and the step runs what it decodes to. -/
theorem placedWordIsRun : Obligations.PlacedWordIsRun :=
  fun _ w _ hf hpc hm hdec => step_of_fetch hf (State.fetch_withFetchWord hm hpc w) hdec

/-- A run of stores in bounds puts its bytes at ascending addresses from I on. -/
theorem storeBytes_read (instr : Instr) {bytes : List Byte} {s : State} (hm : s.mem.wf)
    (hfit : s.dataBase + bytes.length ≤ Config.memSize) {k : Nat} (hk : k < bytes.length) :
    (storeBytes instr bytes s).mem.read (s.dataBase + k) = bytes[k] := by
  rw [storeBytes_ok instr (.inr hfit)]
  exact Memory.read_writeN hm hk hfit

/-- FX55 in bounds stores Vk at I + k (R124). -/
theorem execStoreRegs_read {s t : State} {x k : Reg} (h : exec (.storeRegs x) s = .next t) (hm : s.mem.wf)
    (hfit : s.i.toNat + x.val ≤ 4095) (hk : k ≤ x) : t.mem.read (s.i.toNat + k.val) = s.readReg k := by
  cases execStoreRegs_eq h
  have hlen := s.regsUpTo_length x
  have hlt : k.val < (s.regsUpTo x).length := hlen ▸ Nat.lt_succ_of_le hk
  have hbound : s.dataBase + (s.regsUpTo x).length ≤ Config.memSize := hlen ▸ Nat.succ_le_succ hfit
  exact (storeBytes_read _ hm hbound hlt).trans (s.regsUpTo_getElem x hlt)

/-- Settles O18: PC points at Vk's byte, and Vk+1's is the next. -/
theorem storeSeenByNextFetch : Obligations.StoreSeenByNextFetch := by
  intro s t x k l hm hfit h hl hlx hpc
  have hkx : k.val ≤ x.val := Nat.le_of_succ_le (hl.symm.trans_le hlx)
  have hnext : t.pc.toNat + 1 = s.i.toNat + l.val := by omega
  have hlt : t.pc.toNat + 1 < Config.memSize := by
    rw [hnext]
    exact Nat.lt_succ_of_le ((Nat.add_le_add_left hlx _).trans hfit)
  rw [State.fetch_ok hlt, hnext, hpc, execStoreRegs_read h hm hfit hkx, execStoreRegs_read h hm hfit hlx]

/-! ## What an instruction leaves unchanged (20_memory.md R42, R45) -/

/-- Settles O52: the two storing instructions are a run of stores, and every other frame leaves memory out. -/
theorem memoryChangedOnlyInStoredRun : Obligations.MemoryChangedOnlyInStoredRun := by
  intro i s t a h ha
  cases i with
  | ldB x =>
    cases execLdB_eq h
    exact storeBytes_read_other _ (List.cons_ne_nil _ _) ha
  | storeRegs x =>
    cases execStoreRegs_eq h
    exact storeBytes_read_other _ (s.regsUpTo_ne_nil x) (by rwa [State.regsUpTo_length])
  | _ => rw [exec_mem_eq h nofun nofun]

end Sys2Proof.Machine
end

section
/-! # Encoding (30_encoding.md)

The decoder, the encoder, the well-formedness check and the opcode table, held against one another through the four
nibbles of a word. -/

namespace Sys2Proof

/-! ## Words and their fields (30_encoding.md R61) -/

/-- The fields of an instruction word. -/
abbrev wordFields (w : Word) : Fields := extractFields (highByte w) (lowByte w)

/-- The word with the given fields. -/
def Fields.word (f : Fields) : Word := f.n0 ++ f.n1 ++ f.n2 ++ f.n3

theorem wordFields_word (f : Fields) : wordFields f.word = f := extractFields_nibbles ..

theorem word_wordFields (w : Word) : (wordFields w).word = w := word_of_fields w

theorem Fields.word_eq_addr (f : Fields) : f.word = f.n0 ++ f.address12 := by
  ext i hi
  simp only [Fields.word, Fields.address12]
  grind

theorem Fields.word_eq_regImm (f : Fields) : f.word = f.n0 ++ f.n1 ++ f.immediate8 := by
  ext i hi
  simp only [Fields.word, Fields.immediate8]
  grind

/-! ## Decode after encode (30_encoding.md R65, R66) -/

/-- The fields of an encoding dispatch to the instruction: its family is in n0, its key in n3 or the low byte, and its
operands are in the fields that are left. -/
theorem dispatch_encode (i : Instr) : dispatch (wordFields (encode i)) = some i := by
  cases i with
  | cls | ret => rfl
  | jp | call | ldI | jpV0 => simp [encode, dispatch, extractFields_addr]
  | seImm | sneImm | ldImm | addImm | rnd => simp [encode, dispatch, extractFields_regImm, Fields.regX]
  | seReg | sneReg | drw => simp [encode, dispatch, extractFields_nibbles, Fields.regX, Fields.regY, Fields.rows]
  | ldReg | orReg | andReg | xorReg | addReg | subReg | shr | subnReg | shl =>
    simp [encode, dispatch, dispatchAlu, extractFields_nibbles, Fields.regX, Fields.regY]
  | skp | sknp => simp [encode, dispatch, dispatchKey, extractFields_regImm, Fields.regX]
  | ldVxDT | ldVxK | ldDT | ldST | addI | ldF | ldB | storeRegs | loadRegs =>
    simp [encode, dispatch, dispatchMisc, extractFields_regImm, Fields.regX]

/-- Settles O1: to decode a word is to dispatch its fields. -/
theorem decodeOfEncode : Obligations.DecodeOfEncode :=
  fun i => decodeWord_of_dispatch (dispatch_encode i)

/-! ## Encode after decode (30_encoding.md R64)

In each family the dispatch key and the operands are all of the word, so the encoder puts back every nibble. -/

section
variable {f : Fields} {i : Instr}

theorem encode_of_dispatchZero (hfam : f.n0 = 0x0#4) (h : dispatchZero f = some i) : encode i = f.word := by
  unfold dispatchZero at h
  split at h
  · next hn1 =>
    split at h <;> cases h
    all_goals
      rw [f.word_eq_regImm, hfam, hn1, ‹f.immediate8 = _›]
      rfl
  · cases h

theorem encode_of_dispatchAlu (hfam : f.n0 = 0x8#4) (h : dispatchAlu f = some i) : encode i = f.word := by
  unfold dispatchAlu at h
  split at h <;> cases h
  all_goals
    rw [Fields.word, hfam, ‹f.n3 = _›]
    rfl

theorem encode_of_dispatchKey (hfam : f.n0 = 0xE#4) (h : dispatchKey f = some i) : encode i = f.word := by
  unfold dispatchKey at h
  split at h <;> cases h
  all_goals
    rw [f.word_eq_regImm, hfam, ‹f.immediate8 = _›]
    rfl

theorem encode_of_dispatchMisc (hfam : f.n0 = 0xF#4) (h : dispatchMisc f = some i) : encode i = f.word := by
  unfold dispatchMisc at h
  split at h <;> cases h
  all_goals
    rw [f.word_eq_regImm, hfam, ‹f.immediate8 = _›]
    rfl

/-- The arms of `dispatch` are numbered from 1: arm `h_1` is family 0, arm `h_16` family F. -/
theorem encode_of_dispatch (h : dispatch f = some i) : encode i = f.word := by
  unfold dispatch at h
  split at h
  case h_1 hfam => exact encode_of_dispatchZero hfam h
  case h_9 hfam => exact encode_of_dispatchAlu hfam h
  case h_15 hfam => exact encode_of_dispatchKey hfam h
  case h_16 hfam => exact encode_of_dispatchMisc hfam h
  case h_2 hfam | h_3 hfam | h_11 hfam | h_12 hfam =>
    cases h
    rw [f.word_eq_addr, hfam]
    rfl
  case h_4 hfam | h_5 hfam | h_7 hfam | h_8 hfam | h_13 hfam =>
    cases h
    rw [f.word_eq_regImm, hfam]
    rfl
  case h_6 hfam | h_10 hfam =>
    obtain ⟨hkey, hi⟩ := Option.ite_none_right_eq_some.1 h
    cases hi
    rw [Fields.word, hfam, hkey]
    rfl
  case h_14 hfam =>
    cases h
    rw [Fields.word, hfam]
    rfl
  case h_17 => cases h

end

/-- Decoding goes through the dispatch of the word's fields. -/
theorem dispatch_of_decodeWord {w : Word} {i : Instr} (h : decodeWord w = .ok i) :
    dispatch (wordFields w) = some i := by
  unfold decodeWord decodePair at h
  split at h
  · cases h
    assumption
  · cases h

/-- Settles O2: the instruction encodes to the word made of the fields it was dispatched from. -/
theorem encodeOfDecode : Obligations.EncodeOfDecode :=
  fun w _ h => (encode_of_dispatch (dispatch_of_decodeWord h)).trans (word_wordFields w)

/-! ## Well-formed fields (30_encoding.md R64, R68) -/

section
variable {f : Fields}

theorem dispatchZero_isSome : (dispatchZero f).isSome ↔ f.wfZero := by
  unfold dispatchZero Fields.wfZero
  split
  · split <;> simp_all
  · simp_all

theorem dispatchAlu_isSome : (dispatchAlu f).isSome ↔ f.wfAlu := by
  unfold dispatchAlu Fields.wfAlu
  split
  case h_10 =>
    simp_all
    bv_omega
  all_goals simp [*]

theorem dispatchKey_isSome : (dispatchKey f).isSome ↔ f.wfKey := by
  unfold dispatchKey Fields.wfKey
  split <;> simp_all

theorem dispatchMisc_isSome : (dispatchMisc f).isSome ↔ f.wfMisc := by
  unfold dispatchMisc Fields.wfMisc
  split
  case h_10 =>
    simp_all
    bv_omega
  all_goals simp [*]

/-- Dispatch answers exactly on well-formed fields; its last arm stands for no value of n0. -/
theorem dispatch_isSome : (dispatch f).isSome ↔ f.wf := by
  unfold dispatch Fields.wf
  split
  case h_17 =>
    simp only [imp_false] at *
    bv_omega
  all_goals
    simp [*, Fields.wfSkipReg, dispatchZero_isSome, dispatchAlu_isSome, dispatchKey_isSome, dispatchMisc_isSome]

end

theorem decodeWord_of_wf {w : Word} (h : (wordFields w).wf = true) : ∃ i, decodeWord w = .ok i := by
  obtain ⟨i, hi⟩ := Option.isSome_iff_exists.1 (dispatch_isSome.2 h)
  exact ⟨i, decodeWord_of_dispatch hi⟩

theorem decodePair_of_not_wf {high low : Byte} (h : (extractFields high low).wf = false) :
    decodePair high low = .error (.unknownOpcode high low) := by
  have hnone : dispatch (extractFields high low) = none := by
    rw [← Option.not_isSome_iff_eq_none, dispatch_isSome, h]
    exact Bool.false_ne_true
  simp only [decodePair, hnone]

/-- Settles O4: dispatch answers exactly on well-formed fields. -/
theorem decodeRejectsIllFormedFields : Obligations.DecodeRejectsIllFormedFields :=
  fun _ => ⟨decodeWord_of_wf, decodePair_of_not_wf⟩

/-! ## The opcode table (30_encoding.md R66) -/

open Laws.EncodeRow in
/-- The word of an instruction is selected by the instruction's own row. -/
theorem rowSelects_encode (i : Instr) : rowSelects i.rowNumber (encode i) = true :=
  i.casesOn cls ret jp call seImm sneImm seReg ldImm addImm ldReg orReg andReg xorReg addReg subReg shr subnReg shl
    sneReg ldI jpV0 rnd drw skp sknp ldVxDT ldVxK ldDT ldST addI ldF ldB storeRegs loadRegs

theorem exists_row_of_rowSelects {n : Nat} {w : Word} (h : rowSelects n w = true) :
    ∃ r ∈ opcodeTable, w &&& r.mask = r.value := by
  unfold rowSelects at h
  split at h
  · next r hr => exact ⟨r, List.mem_of_getElem? hr, beq_iff_eq.1 h⟩
  · cases h

/-- A mask acts on each nibble by itself. -/
theorem wordFields_and (w m : Word) :
    wordFields (w &&& m) =
      { n0 := (wordFields w).n0 &&& (wordFields m).n0
        n1 := (wordFields w).n1 &&& (wordFields m).n1
        n2 := (wordFields w).n2 &&& (wordFields m).n2
        n3 := (wordFields w).n3 &&& (wordFields m).n3 } := by
  simp only [extractFields, highByte, lowByte, BitVec.extractLsb'_and]

theorem nibble_and_fifteen (x : BitVec 4) : x &&& 15#4 = x := BitVec.and_allOnes

/-- The nibbles a row's mask covers hold the row's value, and those alone make the fields well-formed. -/
theorem Fields.wf_of_row {f : Fields} {r : OpcodeRow} (hr : r ∈ opcodeTable) (h : f.word &&& r.mask = r.value) :
    f.wf = true := by
  have hn := congrArg wordFields h
  rw [wordFields_and, wordFields_word] at hn
  obtain ⟨n0, n1, n2, n3⟩ := f
  fin_cases hr
  all_goals
    simp [extractFields, highByte, lowByte, nibble_and_fifteen] at hn
    simp [hn, Fields.wf, Fields.wfZero, Fields.wfSkipReg, Fields.wfAlu, Fields.wfKey, Fields.wfMisc,
      Fields.immediate8]

/-- Two rows whose values agree on the bits both masks cover are one row: a check of the 34 rows in pairs. -/
theorem opcodeTable_pairwise_disjoint :
    ∀ r ∈ opcodeTable, ∀ r' ∈ opcodeTable, r.value &&& r'.mask = r'.value &&& r.mask → r = r' := by
  decide

/-- Settles O3: a decoded word is the word of its instruction, a selected word has well-formed fields, and two rows that
select one word agree on the bits both masks cover. -/
theorem decodeAcceptsTableRows : Obligations.DecodeAcceptsTableRows := by
  intro w
  have hown (i : Instr) (h : decodeWord w = .ok i) : rowSelects i.rowNumber w = true :=
    encodeOfDecode w i h ▸ rowSelects_encode i
  refine ⟨⟨fun ⟨i, hi⟩ => exists_row_of_rowSelects (hown i hi), fun ⟨r, hr, h⟩ => ?_⟩, hown,
    fun r hr r' hr' h h' => opcodeTable_pairwise_disjoint r hr r' hr' ?_⟩
  · exact decodeWord_of_wf (Fields.wf_of_row hr (by rwa [word_wordFields]))
  · rw [← h, ← h', BitVec.and_assoc, BitVec.and_assoc, BitVec.and_comm r.mask]

end Sys2Proof

namespace Sys2Proof.Machine

/-! ## An illegal word (40_step_cycle.md R82, R83, 60_exceptions.md R166) -/

/-- One signal exactly while the sound timer's remaining value is above 0 (R153). -/
theorem State.audioEvents_eq (s : State) :
    s.audioEvents = if 0 < (s.st.remaining s.inputs.timeAudio).toNat then [.audioSignal] else [] := rfl

/-- A step that fetches two bytes of no instruction takes UnknownOpcode. -/
theorem step_of_decode_error {s : State} {high low : Byte} {e : DecodeError} (hf : s.fault = none)
    (hfetch : s.fetch = .ok (high, low)) (hdec : decodePair high low = .error e) :
    step s = .next (s.unknownOpcode high low) := by
  simp only [step, hf, hfetch, hdec]

/-- Settles O12: both bytes are fetched and their fields are rejected; UnknownOpcode is raised after the audio check. -/
theorem illegalWordRaisesUnknownOpcode : Obligations.IllegalWordRaisesUnknownOpcode := by
  intro s high low hf hpc hhigh hlow hwf
  have hfetch : s.fetch = .ok (high, low) := by
    rw [State.fetch_ok (Nat.add_le_add_right hpc 2), hhigh, hlow]
  rw [step_of_decode_error hf hfetch (decodePair_of_not_wf hwf), State.unknownOpcode, State.afterFetch,
    State.audioEvents_eq]
  rfl

end Sys2Proof.Machine
end

section
/-! # The step cycle (40_step_cycle.md)

What a step of a halted core, a step whose fetch fails and a step that runs an instruction answer, and the order of
the clock samples from one step to the next. -/

namespace Sys2Proof.Machine

/-! ## The clock (40_step_cycle.md R88, 60_exceptions.md R179) -/

/-- The samples drawn at the end of a step are not before its own, and in order. -/
theorem State.nextInputs_clock (s : State) :
    s.inputs.timeExec ≤ s.nextInputs.inputs.timeAudio ∧
      s.nextInputs.inputs.timeAudio ≤ s.nextInputs.inputs.timeExec :=
  ⟨Inputs.draw_since .., Inputs.draw_order ..⟩

/-- Settles O16: a step that ends without a fault has executed an instruction, which keeps the samples, and has drawn
new ones after it. -/
theorem clockNeverGoesBack : Obligations.ClockNeverGoesBack := by
  intro s t hf h ht
  obtain ⟨hhalted, -⟩ | ⟨-, -, rfl⟩ | ⟨-, -, -, rfl⟩ | ⟨-, -, i, u, -, hexec, rfl⟩ := step_cases h
  · exact absurd hf hhalted
  · exact absurd ht (Option.some_ne_none _)
  · exact absurd ht (Option.some_ne_none _)
  · have hkept : u.inputs = s.inputs := (exec_inputs_eq hexec).trans s.afterFetch_inputs
    rw [← hkept]
    exact u.nextInputs_clock

/-! ## A halted core (40_step_cycle.md R86, 60_exceptions.md R161) -/

/-- Settles O10: the latch is looked at before anything else. -/
theorem haltedStepDoesNothing : Obligations.HaltedStepDoesNothing := by
  intro s f hf
  simp only [step, hf]

/-! ## A fetch beyond the memory (40_step_cycle.md R80, 60_exceptions.md R163) -/

/-- A step that cannot fetch takes the fetch fault. -/
theorem step_of_fetch_error {s : State} {addr : Nat} (hf : s.fault = none) (hfetch : s.fetch = .error addr) :
    step s = .next (s.fetchFault addr) := by
  simp only [step, hf, hfetch]

/-- The address in the record of a fetch fault: the low byte's at PC 4095, the high byte's above (R168, D16). -/
theorem fetchFault_addr {pc : Word} (hpc : 4095 ≤ pc.toNat) :
    BitVec.ofNat 16 (max pc.toNat Config.memSize) = if pc.toNat = 4095 then 4096 else pc := by
  split
  next hlast => rw [hlast]; rfl
  next hlast =>
    have habove : Config.memSize ≤ pc.toNat := lt_of_le_of_ne hpc (Ne.symm hlast)
    rw [max_eq_left habove, BitVec.ofNat_toNat, BitVec.setWidth_eq]

/-- Settles O11: the fetch fails at the first of its two addresses that is above 4095. -/
theorem fetchBeyondMemoryFaults : Obligations.FetchBeyondMemoryFaults := by
  intro s hf hpc
  have hfetch := State.fetch_error (Nat.succ_le_succ hpc)
  rw [step_of_fetch_error hf hfetch, State.fetchFault, fetchFault_addr hpc]
  rfl

/-! ## The instruction of a step (40_step_cycle.md R80 to R84, R89) -/

/-- Settles O13: both bytes are fetched, and execution begins in the state after the audio check. -/
theorem stepRunsDecodedInstruction : Obligations.StepRunsDecodedInstruction := by
  intro s t high low i hf hpc hhigh hlow hdec hexec
  have hfetch : s.fetch = .ok (high, low) := by
    rw [State.fetch_ok (Nat.add_le_add_right hpc 2), hhigh, hlow]
  rw [← State.audioEvents_eq] at hexec
  rw [step_of_fetch hf hfetch hdec, State.afterFetch, hexec]
  rfl

end Sys2Proof.Machine
end

section
/-! # Control transfer (41_control_flow.md)

The exact next state of the return, the two jumps, the call and the four skips that compare registers. -/

namespace Sys2Proof.Machine

/-! ## Return and call (41_control_flow.md R90, R92) -/

/-- Settles O19: the two clauses are the two answers of `pop`. -/
theorem returnPopsOrUnderflows : Obligations.ReturnPopsOrUnderflows := by
  refine fun s => ⟨fun a rest hstack => ?_, fun hempty => ?_⟩
  · rw [exec, execRet, State.pop_cons hstack]
    rfl
  · rw [exec, execRet, State.pop_nil hempty]
    rfl

/-- Settles O21: the two clauses are the two answers of `push`. -/
theorem callPushesOrOverflows : Obligations.CallPushesOrOverflows := by
  refine fun s nnn => ⟨fun hroom => ?_, fun hfull => ?_⟩
  · rw [exec, execCall, State.push_of_lt _ hroom]
    rfl
  · rw [exec, execCall, State.push_of_full _ hfull]
    rfl

/-! ## Jumps (41_control_flow.md R91, R93) -/

/-- Settles O20: both arms only set PC, and the sum of BNNN does not wrap. -/
theorem jumpsSetPc : Obligations.JumpsSetPc :=
  fun _ nnn => ⟨rfl, _, rfl, rfl, zext16_add_toNat nnn _⟩

/-! ## Skips (41_control_flow.md R94 to R98) -/

/-- A skip changes PC only, to PC + 4 exactly where what its test decides holds (R98). -/
theorem State.skipIf_eq_of_iff (s : State) {c : Bool} {p : Prop} [Decidable p] (h : c = true ↔ p) :
    s.skipIf c = { s with pc := if p then s.pc + 4 else s.pc + 2 } := by
  rw [State.skipIf, State.setPc, if_congr h rfl rfl]

/-- Settles O22: the tests are equality with the immediate and its negation. -/
theorem skipsOnImmediate : Obligations.SkipsOnImmediate :=
  fun s _ _ =>
    ⟨congrArg Host.Outcome.next (s.skipIf_eq_of_iff beq_iff_eq),
      congrArg Host.Outcome.next (s.skipIf_eq_of_iff bne_iff_ne)⟩

/-- Settles O23: the tests are equality of the two registers and its negation. -/
theorem skipsOnRegisters : Obligations.SkipsOnRegisters :=
  fun s _ _ =>
    ⟨congrArg Host.Outcome.next (s.skipIf_eq_of_iff beq_iff_eq),
      congrArg Host.Outcome.next (s.skipIf_eq_of_iff bne_iff_ne)⟩

end Sys2Proof.Machine
end

section
/-! # Registers and arithmetic (42_alu.md)

Seven instructions write Vx only; five write a flag to VF first and then the result to Vx.  One rule for each kind
says what every register holds afterwards, and each instruction adds the value of its result and of its flag. -/

namespace Sys2Proof.Machine

/-! ## A result in Vx -/

/-- An instruction that ends in one register write changes that register and PC only. -/
theorem State.writeReg_fallThrough_frame (s : State) (x : Reg) (b : Byte) :
    OnlyRegsAndPc s (s.writeReg x b).fallThrough ∧
      ∀ k, (s.writeReg x b).fallThrough.readReg k = if k = x then b else s.readReg k :=
  ⟨rfl, fun k => s.readReg_writeReg x k b⟩

/-- Settles O24: both arms are one register write. -/
theorem movesWriteOnlyVx : Obligations.MovesWriteOnlyVx :=
  fun s x y nn =>
    ⟨⟨_, rfl, s.writeReg_fallThrough_frame x nn⟩,
      ⟨_, rfl, s.writeReg_fallThrough_frame x (s.readReg y)⟩⟩

/-- Settles O25: the one register written is Vx, with the sum of bytes, which wraps. -/
theorem addImmediateWrapsWithoutFlag : Obligations.AddImmediateWrapsWithoutFlag := by
  intro s x nn
  obtain ⟨hframe, hregs⟩ := s.writeReg_fallThrough_frame x (s.readReg x + nn)
  refine ⟨_, rfl, hframe, ?_, fun k hk => (hregs k).trans (if_neg hk)⟩
  rw [hregs, if_pos rfl, BitVec.toNat_add]

/-- Settles O26: each of the three arms is one register write. -/
theorem logicalOpsLeaveFlagAlone : Obligations.LogicalOpsLeaveFlagAlone :=
  fun s x y =>
    ⟨⟨_, rfl, s.writeReg_fallThrough_frame x (s.readReg x ||| s.readReg y)⟩,
      ⟨_, rfl, s.writeReg_fallThrough_frame x (s.readReg x &&& s.readReg y)⟩,
      ⟨_, rfl, s.writeReg_fallThrough_frame x (s.readReg x ^^^ s.readReg y)⟩⟩

/-- Settles O30: one register write and one draw; the byte is the input of the step. -/
theorem randomByteIsMasked : Obligations.RandomByteIsMasked :=
  fun s x nn => ⟨_, rfl, rfl, fun k => s.readReg_writeReg x k (s.inputs.random &&& nn)⟩

/-! ## A flag in VF, then a result in Vx (42_alu.md R113) -/

/-- After the flag write an operand named VF is the flag. -/
theorem State.readReg_setFlag_of_eq (s : State) {flag : Bool} {f : Byte} (hf : flagByte flag = f) (k : Reg) :
    (s.setFlag flag).readReg k = if k = 15 then f else s.readReg k :=
  hf ▸ s.readReg_setFlag k flag

/-- Vx ends as the result, VF as the flag where it is another register, and no third register changes. -/
theorem State.setFlag_writeReg_regs (s : State) {flag : Bool} {f : Byte} (hf : flagByte flag = f) (x : Reg) {b : Byte}
    {n : Nat} (hb : b.toNat = n) :
    (((s.setFlag flag).writeReg x b).fallThrough.readReg x).toNat = n ∧
      (x ≠ 15 → ((s.setFlag flag).writeReg x b).fallThrough.readReg 15 = f) ∧
      ∀ k, k ≠ x → k ≠ 15 → ((s.setFlag flag).writeReg x b).fallThrough.readReg k = s.readReg k := by
  simp only [readReg_fallThrough, readReg_writeReg, s.readReg_setFlag_of_eq hf, if_true]
  refine ⟨hb, fun hx => ?_, fun k hkx hkF => ?_⟩
  · rw [if_neg hx.symm]
  · rw [if_neg hkx, if_neg hkF]

/-! ## The flags (42_alu.md R112) -/

theorem flagByte_carryOut (a b : Byte) : flagByte (carryOut a b) = if a.toNat + b.toNat > 255 then 1 else 0 := by
  simp only [flagByte, carryOut, decide_eq_true_eq]

theorem flagByte_noBorrow (a b : Byte) : flagByte (noBorrow a b) = if a.toNat ≥ b.toNat then 1 else 0 := by
  simp only [flagByte, noBorrow, decide_eq_true_eq]

/-- The flag of a bit is that bit of the value. -/
theorem flagByte_getLsbD_toNat (a : Byte) (k : Nat) : (flagByte (a.getLsbD k)).toNat = a.toNat / 2 ^ k % 2 := by
  rw [← Nat.toNat_testBit]
  cases h : a.getLsbD k <;> simp [flagByte, BitVec.testBit_toNat, h]

theorem flagByte_bitOutRight {a f : Byte} (hf : f.toNat = a.toNat % 2) : flagByte (bitOutRight a) = f := by
  apply BitVec.eq_of_toNat_eq
  rw [bitOutRight, flagByte_getLsbD_toNat, hf]
  omega

theorem flagByte_bitOutLeft {a f : Byte} (hf : f.toNat = a.toNat / 128) : flagByte (bitOutLeft a) = f := by
  apply BitVec.eq_of_toNat_eq
  rw [bitOutLeft, flagByte_getLsbD_toNat, hf]
  have := a.isLt
  omega

/-! ## Sum, difference and shift -/

/-- Settles O27: both operands are read before the flag is written, so the sum stays where X is 0xF. -/
theorem addSetsCarry : Obligations.AddSetsCarry :=
  fun s x _ => ⟨_, rfl, rfl, s.setFlag_writeReg_regs (flagByte_carryOut ..) x (BitVec.toNat_add ..)⟩

/-- The difference of two registers read after the flag write (R107, R109). -/
theorem State.setFlag_sub_toNat (s : State) {flag : Bool} {f : Byte} (hf : flagByte flag = f) (a b : Reg) :
    ((s.setFlag flag).readReg a - (s.setFlag flag).readReg b).toNat =
      ((if a = 15 then f else s.readReg a).toNat + 256 - (if b = 15 then f else s.readReg b).toNat) % 256 := by
  rw [s.readReg_setFlag_of_eq hf, s.readReg_setFlag_of_eq hf, BitVec.toNat_sub]
  have := (if b = 15 then f else s.readReg b).isLt
  omega

/-- Settles O28: the flag is of the old operands, the difference of what is read after the flag write. -/
theorem subtractsSetNoBorrow : Obligations.SubtractsSetNoBorrow := by
  refine fun s x y => ⟨⟨_, rfl, rfl, fun f hf => ?_⟩, ⟨_, rfl, rfl, fun f hf => ?_⟩⟩
  · have hflag := (flagByte_noBorrow (s.readReg x) (s.readReg y)).trans hf.symm
    exact s.setFlag_writeReg_regs hflag x (s.setFlag_sub_toNat hflag x y)
  · have hflag := (flagByte_noBorrow (s.readReg y) (s.readReg x)).trans hf.symm
    exact s.setFlag_writeReg_regs hflag x (s.setFlag_sub_toNat hflag y x)

/-- The shift right of a register read after the flag write (R108). -/
theorem State.setFlag_shr_toNat (s : State) {flag : Bool} {f : Byte} (hf : flagByte flag = f) (x : Reg) :
    ((s.setFlag flag).readReg x >>> 1).toNat = (if x = 15 then f else s.readReg x).toNat / 2 := by
  rw [s.readReg_setFlag_of_eq hf, BitVec.toNat_ushiftRight, Nat.shiftRight_one]

/-- The shift left of a register read after the flag write (R110). -/
theorem State.setFlag_shl_toNat (s : State) {flag : Bool} {f : Byte} (hf : flagByte flag = f) (x : Reg) :
    ((s.setFlag flag).readReg x <<< 1).toNat = (if x = 15 then f else s.readReg x).toNat * 2 % 256 := by
  rw [s.readReg_setFlag_of_eq hf, BitVec.toNat_shiftLeft, Nat.shiftLeft_eq, Nat.pow_one]

/-- Settles O29: the flag is a bit of the old Vx, the shift of what is read after the flag write. -/
theorem shiftsSetBitOut : Obligations.ShiftsSetBitOut := by
  refine fun s x _ => ⟨⟨_, rfl, rfl, fun f hf => ?_⟩, ⟨_, rfl, rfl, fun f hf => ?_⟩⟩
  · have hflag := flagByte_bitOutRight hf
    exact s.setFlag_writeReg_regs hflag x (s.setFlag_shr_toNat hflag x)
  · have hflag := flagByte_bitOutLeft hf
    exact s.setFlag_writeReg_regs hflag x (s.setFlag_shl_toNat hflag x)

end Sys2Proof.Machine
end

section
/-! # Index register and memory (43_index_memory.md)

The three instructions that write I, and what FX33, FX55 and FX65 do where every byte they access exists. -/

namespace Sys2Proof.Machine

/-! ## The index register (43_index_memory.md R120 to R122) -/

/-- Settles O31: each arm is one write to I; the sum of FX1E wraps, and the product of FX29 does not. -/
theorem indexLoads : Obligations.IndexLoads := by
  refine fun s x nnn => ⟨rfl, ⟨_, rfl, rfl, ?_⟩, _, rfl, rfl, glyphAddress_toNat _⟩
  rw [State.fallThrough_i, State.writeI_i, BitVec.toNat_add, zext16_toNat_byte]

/-! ## Stores in bounds (43_index_memory.md R123, R124, 40_step_cycle.md R87) -/

/-- The write events of a run are of its addresses in ascending order, each with what memory holds there in the end. -/
theorem writeEvents_eq_of_read {m : Memory} {a : Nat} {bs : List Byte}
    (h : ∀ k, ∀ hk : k < bs.length, m.read (a + k) = bs[k]) :
    writeEvents a bs = (List.range bs.length).map fun k => .memWrite (a + k) (m.read (a + k)) := by
  induction bs generalizing a with
  | nil => rfl
  | cons b bs ih =>
    have hshift (k : Nat) : a + 1 + k = a + (k + 1) := by omega
    have hhead : m.read a = b := h 0 (Nat.zero_lt_succ _)
    have htail := ih (a := a + 1) fun k hk => hshift k ▸ h (k + 1) (Nat.succ_lt_succ hk)
    simp only [writeEvents, htail, hshift, List.length_cons, List.range_succ_eq_map, List.map_cons, List.map_map,
      Function.comp_def, Nat.add_zero, hhead, Nat.succ_eq_add_one]

section
variable (instr : Instr) {bytes : List Byte} {s : State} (hfit : s.dataBase + bytes.length ≤ Config.memSize)
include hfit

/-- A run of stores in bounds changes memory, the trace and PC only. -/
theorem storeBytes_frame_of_fit :
    storeBytes instr bytes s =
      { s with
        mem := (storeBytes instr bytes s).mem
        events := (storeBytes instr bytes s).events
        pc := s.pc + 2 } := by
  rw [storeBytes_ok instr (.inr hfit)]

/-- A run of stores in bounds records its writes in ascending order (R45, R87). -/
theorem storeBytes_events_of_fit (hm : s.mem.wf) :
    (storeBytes instr bytes s).events = s.events ++ (List.range bytes.length).map fun k =>
      .memWrite (s.dataBase + k) ((storeBytes instr bytes s).mem.read (s.dataBase + k)) := by
  rw [← writeEvents_eq_of_read fun k hk => storeBytes_read instr hm hfit hk, storeBytes_ok instr (.inr hfit)]

end

/-- Settles O33: FX55 is one run of stores, of the X + 1 registers V0 to Vx. -/
theorem storeRegsWritesRun : Obligations.StoreRegsWritesRun := by
  intro s x hm hin
  have hlen := s.regsUpTo_length x
  have hfit : s.dataBase + (s.regsUpTo x).length ≤ Config.memSize := hlen ▸ Nat.succ_le_succ hin
  refine ⟨_, rfl, storeBytes_frame_of_fit _ hfit, fun k hk => execStoreRegs_read rfl hm hin hk, fun a ha => ?_, ?_⟩
  · exact storeBytes_read_other _ (s.regsUpTo_ne_nil x) (by rwa [hlen])
  · rw [← hlen]
    exact storeBytes_events_of_fit _ hfit hm

/-- Settles O32: FX33 is one run of stores, of the three digits of Vx. -/
theorem bcdStoresDigits : Obligations.BcdStoresDigits := by
  intro s x hm hin
  have hfit : s.dataBase + (bcdDigits (s.readReg x)).length ≤ Config.memSize := Nat.succ_le_succ hin
  have hread {k : Nat} (hk : k < 3) := storeBytes_read (.ldB x) hm hfit hk
  refine ⟨_, rfl, storeBytes_frame_of_fit _ hfit, ?_, ?_, ?_, fun a ha => ?_, ?_⟩
  · exact (congrArg BitVec.toNat (hread (k := 0) (by decide))).trans (BitVec.toNat_udiv ..)
  · exact (congrArg BitVec.toNat (hread (k := 1) (by decide))).trans (BitVec.toNat_umod ..)
  · exact (congrArg BitVec.toNat (hread (k := 2) (by decide))).trans (BitVec.toNat_umod ..)
  · exact storeBytes_read_other _ (List.cons_ne_nil _ _) ha
  · exact storeBytes_events_of_fit _ hfit hm

/-! ## Loads in bounds (43_index_memory.md R125) -/

/-- FX65 in bounds loads the run of bytes from I on, in ascending order. -/
theorem execLoadRegs_of_fit {s : State} {x : Reg} (hfit : s.dataBase + (x.val + 1) ≤ Config.memSize) :
    exec (.loadRegs x) s = .next { s with
      v := loadedRegs s.v ((List.range (x.val + 1)).map fun k => s.mem.read (s.dataBase + k))
      events := s.events ++ readEvents s.dataBase (x.val + 1)
      pc := s.pc + 2 } := by
  rw [exec, execLoadRegs, busReadN_ok s.mem (.inr hfit)]
  rfl

/-- A load puts byte k in Vk. -/
theorem loadedRegs_get_of_lt (v : Vector Byte 16) {bytes : List Byte} {k : Reg} (h : k.val < bytes.length) :
    (loadedRegs v bytes).get k = bytes[k.val] := by
  rw [loadedRegs_get, List.getD_eq_getElem _ _ h]

/-- Settles O34: X + 1 bytes are loaded, so Vk is byte k up to Vx, and the registers above Vx are kept. -/
theorem loadRegsReadsRun : Obligations.LoadRegsReadsRun := by
  refine fun s x hin => ⟨_, execLoadRegs_of_fit (Nat.succ_le_succ hin), rfl, fun k hk => ?_, fun k hk => ?_, rfl⟩
  · have hlt : k.val < ((List.range (x.val + 1)).map fun j => s.mem.read (s.dataBase + j)).length := by
      simpa using Nat.lt_succ_of_le hk
    exact (loadedRegs_get_of_lt s.v hlt).trans (by simp [State.dataBase])
  · exact loadedRegs_get_of_length_le s.v (by simpa using hk)

end Sys2Proof.Machine
end

section
/-! # Display (44_display.md)

Which pixels a blit toggles and when it collides, what a second blit of the same sprite does, and the exact next state of
00E0 and of a DXYN that reads its rows. -/

namespace Sys2Proof.Machine

/-! ## The pixels under a sprite (44_display.md R134) -/

/-- `SpriteBitAt` with the origin as numbers, the form the recursion over the rows needs: it moves the origin down past
255 without wrapping. -/
def SpriteBitFrom (ox oy : Nat) (rows : List Byte) (x : Fin 64) (y : Fin 32) : Prop :=
  ∃ r c, ∃ h : r < rows.length, c < 8 ∧ rows[r].getLsbD (7 - c) = true ∧
    x.val = (ox + c) % 64 ∧ y.val = (oy + r) % 32

theorem spriteBitAt_iff_from {ox oy : Byte} {rows : List Byte} {x : Fin 64} {y : Fin 32} :
    SpriteBitAt ox oy rows x y ↔ SpriteBitFrom ox.toNat oy.toNat rows x y := Iff.rfl

/-- A set bit of one sprite row lands on screen column `x`; bit 7 is the leftmost. -/
def RowBitAt (ox : Nat) (row : Byte) (x : Fin 64) : Prop :=
  ∃ k, k < 8 ∧ row.getLsbD k = true ∧ x.val = (ox + (7 - k)) % 64

theorem rowBitAt_iff_column {ox : Nat} {row : Byte} {x : Fin 64} :
    RowBitAt ox row x ↔ ∃ c, c < 8 ∧ row.getLsbD (7 - c) = true ∧ x.val = (ox + c) % 64 := by
  constructor
  · rintro ⟨k, hk, hbit, hx⟩
    exact ⟨7 - k, by omega, by rwa [Nat.sub_sub_self (Nat.le_of_lt_succ hk)], hx⟩
  · rintro ⟨c, hc, hbit, hx⟩
    exact ⟨7 - c, by omega, hbit, by rwa [Nat.sub_sub_self (Nat.le_of_lt_succ hc)]⟩

section
variable {ox oy : Nat} {rows : List Byte} {x : Fin 64} {y : Fin 32}

theorem not_spriteBitFrom_nil : ¬ SpriteBitFrom ox oy [] x y := fun ⟨_, _, hr, _⟩ => nomatch hr

/-- A set bit is in the first row, at the origin, or in the rest, one row down. -/
theorem spriteBitFrom_cons {row : Byte} :
    SpriteBitFrom ox oy (row :: rows) x y ↔
      (y = Fin.ofNat 32 oy ∧ RowBitAt ox row x) ∨ SpriteBitFrom ox (oy + 1) rows x y := by
  rw [rowBitAt_iff_column, Fin.ext_iff]
  constructor
  · rintro ⟨_ | r, c, hr, hc, hbit, hx, hy⟩
    · exact .inl ⟨hy, c, hc, hbit, hx⟩
    · exact .inr ⟨r, c, Nat.lt_of_succ_lt_succ hr, hc, hbit, hx, by rwa [Nat.add_right_comm]⟩
  · rintro (⟨hy, c, hc, hbit, hx⟩ | ⟨r, c, hr, hc, hbit, hx, hy⟩)
    · exact ⟨0, c, Nat.zero_lt_succ _, hc, hbit, hx, hy⟩
    · exact ⟨r + 1, c, Nat.succ_lt_succ hr, hc, hbit, hx, by rwa [Nat.add_right_comm] at hy⟩

/-- Fewer than 32 rows do not wrap round to the screen row above them. -/
theorem SpriteBitFrom.ne_row_above (h : SpriteBitFrom ox (oy + 1) rows x y) (hlen : rows.length < 32) :
    y ≠ Fin.ofNat 32 oy := by
  obtain ⟨r, -, hr, -, -, -, hy⟩ := h
  rw [ne_eq, Fin.ext_iff, Fin.val_ofNat]
  omega

end

/-! ## The blit (44_display.md R134) -/

/-- One sprite row toggles the pixels of its screen row that a set bit lands on. -/
theorem drawRow_pixel_ne (ox : Nat) (y y' : Fin 32) (x : Fin 64) (row : Byte) (b : Blit) :
    (drawColumns ox y row 8 b).fb.pixel x y' ≠ b.fb.pixel x y' ↔ y' = y ∧ RowBitAt ox row x :=
  drawColumns_pixel_ne ox y y' x row le_rfl b

/-- One sprite row collides where a set bit lands on a pixel that was true. -/
theorem drawRow_collision (ox : Nat) (y : Fin 32) (row : Byte) (b : Blit) :
    (drawColumns ox y row 8 b).collision = true ↔
      b.collision = true ∨ ∃ x, b.fb.pixel x y = true ∧ RowBitAt ox row x := by
  rw [drawColumns_collision ox y row le_rfl b]
  refine or_congr_right ⟨?_, ?_⟩
  · rintro ⟨k, hk, hbit, hp⟩
    exact ⟨_, hp, k, hk, hbit, rfl⟩
  · rintro ⟨x, hp, k, hk, hbit, hx⟩
    obtain rfl : x = Fin.ofNat 64 (ox + (7 - k)) := Fin.ext hx
    exact ⟨k, hk, hbit, hp⟩

/-- One sprite row leaves the pixels under the rows below it alone. -/
theorem drawRow_pixel_of_below {ox oy : Nat} {rows : List Byte} {x : Fin 64} {y : Fin 32}
    (h : SpriteBitFrom ox (oy + 1) rows x y) (hlen : rows.length < 32) (row : Byte) (b : Blit) :
    (drawColumns ox (Fin.ofNat 32 oy) row 8 b).fb.pixel x y = b.fb.pixel x y :=
  not_not.1 fun hne => h.ne_row_above hlen ((drawRow_pixel_ne ..).1 hne).1

/-- Rows that do not overlap toggle the pixels a set bit lands on. -/
theorem drawRows_pixel_ne (ox oy : Nat) {rows : List Byte} (hlen : rows.length ≤ 32) (b : Blit) (x : Fin 64)
    (y : Fin 32) :
    (drawRows ox oy rows b).fb.pixel x y ≠ b.fb.pixel x y ↔ SpriteBitFrom ox oy rows x y := by
  induction rows generalizing oy b with
  | nil => exact iff_of_false (fun h => h rfl) not_spriteBitFrom_nil
  | cons row rows ih =>
    have hrest := ih (oy + 1) (Nat.le_of_succ_le hlen) (drawColumns ox (Fin.ofNat 32 oy) row 8 b)
    rw [drawRows_cons, spriteBitFrom_cons, ← drawRow_pixel_ne ox _ y x row b]
    by_cases hbelow : SpriteBitFrom ox (oy + 1) rows x y
    · have hsame := drawRow_pixel_of_below hbelow hlen row b
      exact iff_of_true (hsame ▸ hrest.2 hbelow) (.inr hbelow)
    · rw [not_not.1 (mt hrest.1 hbelow), or_iff_left hbelow]

/-- Rows that do not overlap collide where a set bit lands on a pixel that was true before the first of them. -/
theorem drawRows_collision (ox oy : Nat) {rows : List Byte} (hlen : rows.length ≤ 32) (b : Blit) :
    (drawRows ox oy rows b).collision = true ↔
      b.collision = true ∨ ∃ x y, b.fb.pixel x y = true ∧ SpriteBitFrom ox oy rows x y := by
  induction rows generalizing oy b with
  | nil => simp [not_spriteBitFrom_nil]
  | cons row rows ih =>
    have hbelow (x : Fin 64) (y : Fin 32) :
        ((drawColumns ox (Fin.ofNat 32 oy) row 8 b).fb.pixel x y = true ∧ SpriteBitFrom ox (oy + 1) rows x y) ↔
          (b.fb.pixel x y = true ∧ SpriteBitFrom ox (oy + 1) rows x y) :=
      and_congr_left fun h => by rw [drawRow_pixel_of_below h hlen row b]
    rw [drawRows_cons, ih (oy + 1) (Nat.le_of_succ_le hlen), drawRow_collision, or_assoc]
    simp only [hbelow, spriteBitFrom_cons, and_or_left, exists_or, existsAndEq, true_and]

/-- Settles O39: at most 15 rows do not overlap, and a blit begins without a collision. -/
theorem drawSpriteTogglesSpritePixels : Obligations.DrawSpriteTogglesSpritePixels := by
  intro ox oy rows fb hlen
  have hlen32 : rows.length ≤ 32 := hlen.trans (by decide)
  refine ⟨drawRows_pixel_ne _ _ hlen32 _, (drawRows_collision _ _ hlen32 _).trans ?_⟩
  exact or_iff_right Bool.false_ne_true

/-! ## The same sprite twice (44_display.md R137) -/

/-- Settles O40: what is toggled twice is restored, and a pixel under a set bit is true after the first draw exactly when
it was false before. -/
theorem drawTwiceRestores : Obligations.DrawTwiceRestores := by
  intro ox oy rows fb hlen
  obtain ⟨hfirst, -⟩ := drawSpriteTogglesSpritePixels ox oy rows fb hlen
  obtain ⟨hsecond, hcollision⟩ := drawSpriteTogglesSpritePixels ox oy rows (drawSprite ox oy rows fb).fb hlen
  constructor
  · refine Framebuffer.ext_pixel fun x y => ?_
    have hboth := (hsecond x y).trans (hfirst x y).symm
    by_cases hne : (drawSprite ox oy rows fb).fb.pixel x y ≠ fb.pixel x y
    · exact (Bool.eq_not_of_ne (hboth.2 hne)).trans (Bool.eq_not_of_ne hne.symm).symm
    · exact (not_not.1 (mt hboth.1 hne)).trans (not_not.1 hne)
  · refine hcollision.trans (exists₂_congr fun x y => and_congr_left fun hbit => ?_)
    rw [Bool.eq_not_of_ne ((hfirst x y).2 hbit), Bool.not_eq_true']

/-! ## The display instructions (44_display.md R130 to R136) -/

/-- Settles O37: the arm only sets the grid, to the blank one. -/
theorem clearBlanksEveryPixel : Obligations.ClearBlanksEveryPixel :=
  fun _ => ⟨_, rfl, rfl, Framebuffer.pixel_blank⟩

/-- Settles O38: the run of reads answers the sprite's rows. -/
theorem drawCompletes : Obligations.DrawCompletes := by
  intro s x y n hfit
  refine ⟨_, rfl, ?_⟩
  rw [exec, execDrw, State.dataBase, busReadN_ok s.mem hfit]
  rfl

/-- Settles O41: no row is read, and the blit of no rows is the grid as it was, without a collision. -/
theorem drawZeroRowsLeavesGrid : Obligations.DrawZeroRowsLeavesGrid := by
  intro s x y
  obtain ⟨_, rfl, hexec⟩ := drawCompletes s x y 0 (.inl rfl)
  exact hexec

end Sys2Proof.Machine
end

section
/-! # The keypad (45_keypad.md)

What the keypad answers, the two skips on a key, and the key wait FX0A: its exact next states and a step that waits. -/

namespace Sys2Proof.Machine

/-! ## The keypad's answers (45_keypad.md R142, 60_exceptions.md R176) -/

/-- Settles O42: the two clauses are the two branches of `keyPressed`. -/
theorem keypadAnswers : Obligations.KeypadAnswers :=
  fun inp _ => ⟨fun hlow => dif_pos hlow, inp.keyPressed_high⟩

/-! ## Skips on a key (45_keypad.md R140, R141) -/

/-- Settles O43: the tests are the keypad's answer and its negation, after one query. -/
theorem skipsOnKey : Obligations.SkipsOnKey :=
  fun s _ =>
    ⟨congrArg Host.Outcome.next ((s.emit _).skipIf_eq_of_iff Iff.rfl),
      congrArg Host.Outcome.next ((s.emit _).skipIf_eq_of_iff (Bool.not_eq_true' _).to_iff)⟩

/-! ## The key wait (45_keypad.md R143) -/

/-- A pressed key below which none is pressed is the one FX0A finds. -/
theorem Inputs.lowestKey_of_lowest {inp : Inputs} {k : Fin 16} (hk : inp.keys.get k = true)
    (hbelow : ∀ j, j < k → inp.keys.get j = false) : inp.lowestKey = some k.val := by
  cases hfound : inp.lowestKey with
  | none => exact absurd hk (Bool.eq_false_iff.1 (Inputs.lowestKey_eq_none.1 hfound k))
  | some j =>
    obtain ⟨-, hj, hpressed, hfree⟩ := Inputs.lowestKeyFrom_eq_some hfound
    rw [inp.keyPressed_low ⟨j, by omega⟩] at hpressed
    obtain hlt | rfl | hgt := Nat.lt_trichotomy j k.val
    · exact absurd hpressed (Bool.eq_false_iff.1 (hbelow ⟨j, by omega⟩ hlt))
    · rfl
    · exact absurd hk (Bool.eq_false_iff.1 ((inp.keyPressed_low k).symm.trans (hfree k.val (Nat.zero_le _) hgt)))

/-- Settles O44: the two clauses are the two answers of the search for the lowest pressed key. -/
theorem keyWaitTakesLowestKey : Obligations.KeyWaitTakesLowestKey := by
  refine fun s x => ⟨fun k hk hbelow => ?_, fun hnone => ?_⟩
  · rw [exec, execLdVxK, Inputs.lowestKey_of_lowest hk hbelow]
    rfl
  · rw [exec, execLdVxK, Inputs.lowestKey_eq_none.2 hnone]
    rfl

/-! ## Awaiting a key (10_state.md R32) -/

/-- Fetch delivers the two bytes of the word at PC (R43, R80). -/
theorem State.fetch_of_wordAtPc {s : State} {w : Word} (h : s.wordAtPc = some w) :
    s.fetch = .ok (highByte w, lowByte w) := by
  unfold State.wordAtPc at h
  split at h <;> cases h
  next hfetch => rw [hfetch, highByte_append, lowByte_append]

/-- Whether a key is awaited depends on neither the inputs, nor the counter, nor the trace. -/
theorem State.AwaitingKey.with_inputs {s : State} (hs : s.AwaitingKey) (inp : Inputs) (draws : Nat)
    (es : List Event) : { s with inputs := inp, draws := draws, events := es }.AwaitingKey := hs

/-- Fields that match the row of FX0A dispatch to it: its mask leaves only the field of X free (R66). -/
theorem dispatch_of_keyWaitRow {f : Fields} (h : f.word &&& 0xF0FF = 0xF00A) :
    dispatch f = some (.ldVxK f.regX) := by
  have hn := congrArg wordFields h
  rw [wordFields_and, wordFields_word] at hn
  obtain ⟨n0, n1, n2, n3⟩ := f
  obtain ⟨rfl, rfl, rfl⟩ : n0 = 0xF ∧ n2 = 0x0 ∧ n3 = 0xA := by
    simpa [extractFields, highByte, lowByte, nibble_and_fifteen] using hn
  simp [dispatch, dispatchMisc, Fields.immediate8]

/-- Settles O45: the step runs FX0A, which finds no key and so keeps PC and memory, where the same word stands again. -/
theorem awaitingKeyWaits : Obligations.AwaitingKeyWaits := by
  intro s hawait hnone
  have ⟨hfault, w, hword, hrow⟩ := hawait
  have hdec : decodeWord w = .ok (.ldVxK (wordFields w).regX) :=
    decodeWord_of_dispatch (dispatch_of_keyWaitRow (by rwa [word_wordFields]))
  have hstep := step_of_fetch hfault (State.fetch_of_wordAtPc hword) hdec
  rw [(keyWaitTakesLowestKey s.afterFetch _).2 hnone] at hstep
  exact ⟨_, hstep, rfl, hawait.with_inputs ..⟩

end Sys2Proof.Machine
end

section
/-! # The timers and the audio signal (46_timers.md)

The read of the delay timer, and the audio signal of a step: the audio check is the only place that emits it. -/

namespace Sys2Proof.Machine

/-! ## No instruction emits the audio signal (40_step_cycle.md R87, 46_timers.md R153) -/

theorem audioSignal_notMem_readEvents (a n : Nat) : .audioSignal ∉ readEvents a n := by
  simp [readEvents]

theorem audioSignal_notMem_pollEvents (n : Nat) : .audioSignal ∉ pollEvents n := by
  simp [pollEvents]

theorem audioSignal_notMem_writeEvents (a : Nat) (bytes : List Byte) : .audioSignal ∉ writeEvents a bytes := by
  induction bytes generalizing a with
  | nil => exact List.not_mem_nil
  | cons b bytes ih => exact List.not_mem_cons_of_ne_of_not_mem nofun (ih (a + 1))

/-- A run of stores adds write events to the trace, where it faults those of the bytes below the failing address. -/
theorem storeBytes_events (instr : Instr) {bytes : List Byte} (s : State) (hn : bytes ≠ []) :
    ∃ rest, (storeBytes instr bytes s).events = s.events ++ rest ∧ .audioSignal ∉ rest := by
  obtain ⟨-, h⟩ | ⟨-, h⟩ := storeBytes_cases instr s hn <;>
    exact ⟨_, congrArg State.events h, audioSignal_notMem_writeEvents _ _⟩

/-- An instruction keeps the trace and adds events to it, a fault taken among its ends; none of them is an audio
signal. -/
theorem exec_events {i : Instr} {s t : State} (h : exec i s = .next t) :
    ∃ rest, t.events = s.events ++ rest ∧ .audioSignal ∉ rest := by
  have hframe := exec_frame h
  cases i with
  | rnd | skp | sknp | ldVxDT | ldDT | ldST =>
    cases h
    exact ⟨_, rfl, List.not_mem_cons_of_ne_of_not_mem nofun List.not_mem_nil⟩
  | ldVxK x =>
    obtain ⟨key, -, rfl⟩ | ⟨-, rfl⟩ := execLdVxK_cases h <;> exact ⟨_, rfl, audioSignal_notMem_pollEvents _⟩
  | ldB x => cases execLdB_eq h; exact storeBytes_events _ s (List.cons_ne_nil _ _)
  | storeRegs x => cases execStoreRegs_eq h; exact storeBytes_events _ s (s.regsUpTo_ne_nil x)
  | loadRegs x =>
    obtain ⟨-, rfl⟩ | ⟨-, rfl⟩ := execLoadRegs_cases h <;> exact ⟨_, rfl, audioSignal_notMem_readEvents _ _⟩
  | drw x y n =>
    obtain ⟨-, b, -, rfl⟩ | ⟨-, -, rfl⟩ := execDrw_cases h
    · refine ⟨_, rfl, ?_⟩
      simp [audioSignal_notMem_readEvents]
    · exact ⟨_, rfl, audioSignal_notMem_readEvents _ _⟩
  | _ => exact ⟨[], (congrArg State.events hframe).trans (List.append_nil _).symm, List.not_mem_nil⟩

/-! ## The audio signal of a step (46_timers.md R153, 40_step_cycle.md R82) -/

/-- Settles O15: the audio check puts the signal after the two fetch reads; UnknownOpcode adds no event to them, and
the decoded instruction none that is an audio signal. -/
theorem audioSignalExactlyWhileSounding : Obligations.AudioSignalExactlyWhileSounding := by
  intro s hf hpc
  rw [← State.audioEvents_eq]
  have hfetch := State.fetch_ok (Nat.add_le_add_right hpc 2)
  cases hdec : decodePair (s.mem.read s.pc.toNat) (s.mem.read (s.pc.toNat + 1)) with
  | error e =>
    exact ⟨_, [], step_of_decode_error hf hfetch hdec, (List.append_nil _).symm, List.not_mem_nil⟩
  | ok i =>
    obtain ⟨t, hexec⟩ := exec_next i s.afterFetch
    obtain ⟨rest, hevents, hrest⟩ := exec_events hexec
    have hstep := step_of_fetch hf hfetch hdec
    rw [hexec] at hstep
    exact ⟨t.nextInputs, rest, hstep, hevents, hrest⟩

/-! ## The delay timer (46_timers.md R150) -/

/-- Settles O46: one register write and one clock sample; no timer is written. -/
theorem delayTimerIsRead : Obligations.DelayTimerIsRead :=
  fun s x => ⟨_, rfl, rfl, fun k => s.readReg_writeReg x k (s.dt.remaining s.inputs.timeExec)⟩

end Sys2Proof.Machine
end

section
/-! # Exceptions (60_exceptions.md)

When an instruction latches a fault, what a data MemoryBoundsError records, and what it leaves in the registers, the
memory and the framebuffer. -/

namespace Sys2Proof.Machine

/-! ## A data access that leaves the memory (60_exceptions.md R163, R168) -/

/-- The address in the record of a data fault: I where no byte of the access exists, else the first above 4095 (D16). -/
theorem dataFault_addr (a : Word) :
    BitVec.ofNat 16 (max a.toNat Config.memSize) = if 4095 < a.toNat then a else 4096 := by
  split
  next habove => rw [max_eq_left (show Config.memSize ≤ _ from habove), BitVec.ofNat_toNat, BitVec.setWidth_eq]
  next hbelow => rw [max_eq_right ((not_lt.1 hbelow).trans (by decide))]; rfl

theorem bcdDigits_ne_nil (b : Byte) : bcdDigits b ≠ [] := List.cons_ne_nil _ _

section
variable {i : Instr} {s t : State} (h : exec i s = .next t)
include h

/-- A data access whose last byte does not exist takes the fault; what else can change is what the instruction writes,
and PC is old or new. -/
theorem exec_of_dataPastEnd (hn : 0 < i.dataBytes) (hend : Config.memSize < s.dataBase + i.dataBytes) :
    t = { s with
      v := t.v
      mem := t.mem
      fb := t.fb
      pc := s.faultPc
      fault := some (.memoryBoundsError s.pc (some (encode i)) (BitVec.ofNat 16 (max s.dataBase Config.memSize)))
      events := t.events } := by
  cases i with
  | drw x y n =>
    obtain ⟨hzero | hfit, -⟩ | ⟨-, -, rfl⟩ := execDrw_cases h
    · exact absurd hzero hn.ne'
    · exact absurd hend hfit.not_gt
    · rfl
  | loadRegs x =>
    obtain ⟨hfit, -⟩ | ⟨-, rfl⟩ := execLoadRegs_cases h
    · exact absurd hend hfit.not_gt
    · rfl
  | ldB x =>
    cases execLdB_eq h
    rw [storeBytes_error _ (bcdDigits_ne_nil _) hend]
  | storeRegs x =>
    cases execStoreRegs_eq h
    rw [storeBytes_error _ (s.regsUpTo_ne_nil x) (by rwa [State.regsUpTo_length])]
  | _ => cases hn

/-- The latch after a data access whose last byte does not exist. -/
theorem exec_fault_of_dataPastEnd (hn : 0 < i.dataBytes) (hend : 4096 < s.i.toNat + i.dataBytes) :
    t.fault = some (.memoryBoundsError s.pc (some (encode i)) (if 4095 < s.i.toNat then s.i else 4096)) :=
  dataFault_addr s.i ▸ congrArg State.fault (exec_of_dataPastEnd h hn hend)

/-- An instruction that is neither a return nor a call, and accesses no byte that does not exist, keeps the latch. -/
theorem exec_fault_eq (hret : i ≠ .ret) (hcall : ∀ nnn, i ≠ .call nnn)
    (hin : ¬(0 < i.dataBytes ∧ Config.memSize < s.dataBase + i.dataBytes)) : t.fault = s.fault := by
  have hframe := exec_frame h
  cases i with
  | ret => exact absurd rfl hret
  | call nnn => exact absurd rfl (hcall nnn)
  | drw x y n =>
    obtain ⟨-, b, -, rfl⟩ | ⟨hn, hend, -⟩ := execDrw_cases h
    · rfl
    · exact absurd ⟨hn, hend⟩ hin
  | loadRegs x =>
    obtain ⟨-, rfl⟩ | ⟨hend, -⟩ := execLoadRegs_cases h
    · rfl
    · exact absurd ⟨Nat.succ_pos _, hend⟩ hin
  | ldB x =>
    cases execLdB_eq h
    have hfit : s.dataBase + (bcdDigits (s.readReg x)).length ≤ Config.memSize :=
      not_lt.1 fun hend => hin ⟨Nat.succ_pos _, hend⟩
    exact (congrArg State.fault (storeBytes_ok (.ldB x) (.inr hfit)) :)
  | storeRegs x =>
    cases execStoreRegs_eq h
    have hfit : s.dataBase + (s.regsUpTo x).length ≤ Config.memSize :=
      s.regsUpTo_length x ▸ not_lt.1 fun hend => hin ⟨Nat.succ_pos _, hend⟩
    exact (congrArg State.fault (storeBytes_ok (.storeRegs x) (.inr hfit)) :)
  | _ => exact (congrArg State.fault hframe :)

end

/-- Settles O35: every instruction answers a next state, and an access past the end leaves its record in the latch. -/
theorem dataAccessPastEndFaults : Obligations.DataAccessPastEndFaults := by
  intro s i hn hend
  obtain ⟨t, h⟩ := exec_next i s
  exact ⟨t, h, exec_fault_of_dataPastEnd h hn hend⟩

/-! ## Which instructions latch a fault (60_exceptions.md R163 to R165, R169) -/

theorem execRet_fault_iff {s t : State} (hs : s.fault = none) (h : exec .ret s = .next t) :
    t.fault ≠ none ↔ s.stack = [] := by
  obtain ⟨a, rest, hstack, rfl⟩ | ⟨hempty, rfl⟩ := execRet_cases h
  · exact iff_of_false (not_not.2 hs) (hstack ▸ List.cons_ne_nil a rest)
  · exact iff_of_true (Option.some_ne_none _) hempty

theorem execCall_fault_iff {s t : State} {nnn : Addr12} (hs : s.fault = none) (h : exec (.call nnn) s = .next t) :
    t.fault ≠ none ↔ 16 ≤ s.stack.length := by
  obtain ⟨hroom, rfl⟩ | ⟨hfull, rfl⟩ := execCall_cases h
  · exact iff_of_false (not_not.2 hs) hroom.not_ge
  · exact iff_of_true (Option.some_ne_none _) hfull

/-- Settles O56: an access past the end always faults; without one, 00EE and 2NNN fault on the stack alone, and every
other instruction keeps the empty latch. -/
theorem faultsExactlyWhenListed : Obligations.FaultsExactlyWhenListed := by
  intro i s t hs h
  by_cases hdata : 0 < i.dataBytes ∧ 4096 < s.i.toNat + i.dataBytes
  · obtain ⟨hn, hend⟩ := hdata
    have hfault := exec_fault_of_dataPastEnd h hn hend
    exact iff_of_true (hfault ▸ Option.some_ne_none _) (.inr (.inr ⟨hn, hend⟩))
  · cases i with
    | ret => simp [execRet_fault_iff hs h, Instr.dataBytes]
    | call nnn => simp [execCall_fault_iff hs h, Instr.dataBytes]
    | _ =>
      have hkept := exec_fault_eq h nofun nofun hdata
      exact iff_of_false (not_not.2 (hkept.trans hs)) (by simpa using hdata)

/-! ## What a data fault leaves (60_exceptions.md R162, 93_implementation_defined.md K8) -/

theorem State.faultPc_eq_or (s : State) : s.faultPc = s.pc ∨ s.faultPc = s.pc + 2 := by
  unfold State.faultPc
  split
  · exact .inr rfl
  · exact .inl rfl

/-- VF after a faulting DXYN is old or a flag. -/
theorem State.faultFlag_eq_or (s : State) : s.faultFlag = s.readReg 15 ∨ s.faultFlag = 0 ∨ s.faultFlag = 1 := by
  unfold State.faultFlag
  split
  · cases s.landed .collision
    · exact .inr (.inl rfl)
    · exact .inr (.inr rfl)
  · exact .inl rfl

/-- After a faulting FX65 a register is old, or holds the byte that exists at its address. -/
theorem execLoadRegs_readReg_eq_or {s t : State} {x : Reg} (hend : 4096 < s.i.toNat + (x.val + 1))
    (h : exec (.loadRegs x) s = .next t) (k : Reg) :
    t.readReg k = s.readReg k ∨
      (k ≤ x ∧ s.i.toNat + k.val ≤ 4095 ∧ t.readReg k = s.mem.read (s.i.toNat + k.val)) := by
  obtain ⟨hfit, -⟩ | ⟨-, rfl⟩ := execLoadRegs_cases h
  · exact absurd hend hfit.not_gt
  · simp only [State.readReg, State.faultLoadedRegs, Vector.get_eq_getElem, Vector.getElem_ofFn, Fin.eta]
    split
    next hload =>
      obtain ⟨hk, haddr, -⟩ := hload
      exact .inr ⟨hk, Nat.le_of_lt_succ haddr, rfl⟩
    next => exact .inl rfl

/-- A faulting run of writes leaves each byte of memory old, or at the one the run writes there. -/
theorem Memory.read_writeSome_eq_or (keep : Nat → Bool) {m : Memory} (hm : m.wf) (a j : Nat) (bs : List Byte) :
    (m.writeSome keep a bs).read j = m.read j ∨
      ∃ k, ∃ hk : k < bs.length, j = a + k ∧ j < Config.memSize ∧ (m.writeSome keep a bs).read j = bs[k] := by
  by_cases hrun : j < a ∨ a + bs.length ≤ j
  · exact .inl (Memory.read_writeSome_other keep m hrun)
  · obtain ⟨k, rfl⟩ := Nat.exists_eq_add_of_le (not_lt.1 (not_or.1 hrun).1)
    have hk : k < bs.length := by omega
    have hread := Memory.read_writeSome keep hm (a := a) hk
    split at hread
    next hland => exact .inr ⟨k, hk, rfl, hland.1, hread⟩
    next => exact .inl hread

/-- A screen column is the sprite column that falls on it, counted from the origin with wrapping. -/
theorem eq_add_spriteColumn (ox : Byte) (x : Fin 64) : x.val = (ox.toNat + spriteColumn ox x) % 64 := by
  unfold spriteColumn
  omega

/-- A screen row is the sprite row that falls on it, counted from the origin with wrapping. -/
theorem eq_add_spriteRow (oy : Byte) (y : Fin 32) : y.val = (oy.toNat + spriteRow oy y) % 32 := by
  unfold spriteRow
  omega

theorem eq_true_of_xor_ne {a b : Bool} (h : (a ^^ b) ≠ a) : b = true :=
  Bool.eq_true_of_not_eq_false fun hb => h (by rw [hb, Bool.xor_false])

/-- A faulting DXYN changes only pixels under the sprite, at a set bit or in a row that could not be read. -/
theorem State.faultFramebuffer_pixel_ne {s : State} {ox oy : Byte} {n : RowCount} {x : Fin 64} {y : Fin 32}
    (h : (s.faultFramebuffer ox oy n).pixel x y ≠ s.fb.pixel x y) :
    spriteRow oy y < n.val ∧ spriteColumn ox x < 8 ∧
      (s.dataBase + spriteRow oy y < Config.memSize →
        (s.mem.read (s.dataBase + spriteRow oy y)).getLsbD (7 - spriteColumn ox x) = true) := by
  rw [State.faultFramebuffer_pixel] at h
  have htoggled := eq_true_of_xor_ne h
  simp only [Bool.and_eq_true, decide_eq_true_eq] at htoggled
  obtain ⟨⟨⟨hc, hr⟩, -⟩, hbit⟩ := htoggled
  exact ⟨hr, hc, fun hread => by rwa [if_pos hread] at hbit⟩

/-- A run of stores past the end leaves each byte of memory old, or at the one the run writes there. -/
theorem storeBytes_read_eq_or (instr : Instr) {bytes : List Byte} {s : State} (hn : bytes ≠ []) (hm : s.mem.wf)
    (hend : Config.memSize < s.dataBase + bytes.length) (a : Nat) :
    (storeBytes instr bytes s).mem.read a = s.mem.read a ∨
      ∃ k, ∃ hk : k < bytes.length, a = s.dataBase + k ∧ a < Config.memSize ∧
        (storeBytes instr bytes s).mem.read a = bytes[k] := by
  rw [storeBytes_error instr hn hend]
  exact Memory.read_writeSome_eq_or _ hm ..

/-- VF and the grid after a faulting DXYN. -/
theorem execDrw_of_pastEnd {s t : State} {x y : Reg} {n : RowCount} (hn : 0 < n.val)
    (hend : Config.memSize < s.dataBase + n.val) (h : exec (.drw x y n) s = .next t) :
    t.readReg 15 = s.faultFlag ∧ t.fb = s.faultFramebuffer (s.readReg x) (s.readReg y) n := by
  obtain ⟨hzero | hfit, -⟩ | ⟨-, -, rfl⟩ := execDrw_cases h
  · exact absurd hzero hn.ne'
  · exact absurd hend hfit.not_gt
  · exact ⟨(s.readReg_writeReg regF regF s.faultFlag).trans (if_pos rfl), rfl⟩

section
variable {s t : State} {x : Reg} (hm : s.mem.wf)
include hm

/-- Of the three digits of a faulting FX33 the last has no address. -/
theorem execLdB_read_eq_or (hend : 4096 < s.i.toNat + 3) (h : exec (.ldB x) s = .next t) (a : Nat) :
    t.mem.read a = s.mem.read a ∨ (a = s.i.toNat ∧ (t.mem.read a).toNat = (s.readReg x).toNat / 100) ∨
      (a = s.i.toNat + 1 ∧ (t.mem.read a).toNat = (s.readReg x).toNat / 10 % 10) := by
  cases execLdB_eq h
  obtain hold | ⟨k, hk, hak, ha, hnew⟩ := storeBytes_read_eq_or (.ldB x) (bcdDigits_ne_nil (s.readReg x)) hm hend a
  · exact .inl hold
  · match k, hk, hak, hnew with
    | 0, _, hak, hnew => exact .inr (.inl ⟨hak, (congrArg BitVec.toNat hnew).trans (BitVec.toNat_udiv ..)⟩)
    | 1, _, hak, hnew => exact .inr (.inr ⟨hak, (congrArg BitVec.toNat hnew).trans (BitVec.toNat_umod ..)⟩)
    | 2, _, hak, _ =>
      have hlast : s.i.toNat + 2 < 4096 := hak ▸ ha
      omega

/-- After a faulting FX55 a byte is old, or the register the rule stores at its address. -/
theorem execStoreRegs_read_eq_or (hend : 4096 < s.i.toNat + (x.val + 1)) (h : exec (.storeRegs x) s = .next t)
    (a : Nat) :
    t.mem.read a = s.mem.read a ∨
      ∃ k : Reg, k ≤ x ∧ a = s.i.toNat + k.val ∧ a ≤ 4095 ∧ t.mem.read a = s.readReg k := by
  cases execStoreRegs_eq h
  have hlen := s.regsUpTo_length x
  obtain hold | ⟨k, hk, hak, ha, hnew⟩ :=
    storeBytes_read_eq_or (.storeRegs x) (s.regsUpTo_ne_nil x) hm (hlen ▸ hend) a
  · exact .inl hold
  · exact .inr ⟨⟨k, by omega⟩, Nat.le_of_lt_succ (hlen ▸ hk), hak, Nat.le_of_lt_succ ha,
      hnew.trans (s.regsUpTo_getElem x hk)⟩

end

/-- Settles O36: the fault leaves PC old or new and takes the latch; then item by item what each of the four
instructions writes. -/
theorem dataFaultLeavesOldOrNew : Obligations.DataFaultLeavesOldOrNew := by
  intro s t i hm hn hend h
  have hframe := exec_of_dataPastEnd h hn hend
  have hpc := congrArg State.pc hframe
  have hfault := congrArg State.fault hframe
  refine ⟨hpc ▸ s.faultPc_eq_or, by rwa [hpc, hfault], ?_⟩
  cases i with
  | ldB x => exact ⟨(congrArg State.v (exec_frame h) :), exec_fb_eq h nofun nofun, execLdB_read_eq_or hm hend h⟩
  | storeRegs x =>
    exact ⟨(congrArg State.v (exec_frame h) :), exec_fb_eq h nofun nofun, execStoreRegs_read_eq_or hm hend h⟩
  | loadRegs x =>
    exact ⟨exec_mem_eq h nofun nofun, exec_fb_eq h nofun nofun, execLoadRegs_readReg_eq_or hend h⟩
  | drw x y n =>
    obtain ⟨hflag, hfb⟩ := execDrw_of_pastEnd hn hend h
    rw [hflag, hfb]
    refine ⟨exec_mem_eq h nofun nofun, fun k => registersOutsideTableKept _ _ _ k h, s.faultFlag_eq_or,
      fun px py hne => ?_⟩
    obtain ⟨hr, hc, hbit⟩ := State.faultFramebuffer_pixel_ne hne
    exact ⟨_, _, hr, hc, eq_add_spriteColumn .., eq_add_spriteRow .., fun hin => hbit (Nat.lt_succ_of_le hin)⟩
  | _ => trivial

end Sys2Proof.Machine
end

section
/-! # Reset, launch and the states the host's moves lead to (70_reset_and_hazards.md)

The decode vectors first; then what a host reset and a launch leave, the end of a run, and the invariant in every
reachable state. -/

namespace Sys2Proof.Machine

/-! ## Decode vectors (95_test_vectors.md DEC-1 to DEC-6, L1-8) -/

/-- Settles O5: five words are encodings, and the fields of the other two name no instruction. -/
theorem decodeSampleWords : Obligations.DecodeSampleWords :=
  ⟨decodeOfEncode (.addReg 10 11), decodeOfEncode (.drw 1 2 15), decodeOfEncode (.jp 0xFFF),
    decodeOfEncode (.loadRegs 1), decodeOfEncode (.ldImm 0 5), decodePair_of_not_wf rfl, decodePair_of_not_wf rfl⟩

/-! ## Reset by the host (70_reset_and_hazards.md R190, 60_exceptions.md R181) -/

/-- Settles O7: a host reset leaves the reset state but for the inputs and the counter. -/
theorem hostResetClearsEverything : Obligations.HostResetClearsEverything :=
  fun _ => resetState

/-! ## Launch (70_reset_and_hazards.md R192) -/

/-- A ROM that fits is written after the font into the memory of the reset state. -/
theorem launch_eq {font : Vector Byte Config.fontLen} {rom : List Byte} (hrom : rom.length ≤ 3584) :
    launch font rom = { State.reset with
      mem := (Memory.writeN [] Config.fontBase font.toList).writeN Config.programBase rom } := by
  have hfont : Config.fontBase + font.toList.length ≤ Config.memSize := by
    rw [Vector.length_toList]
    decide
  rw [launch, State.load_of_le _ hfont, State.load_of_le _ (Nat.add_le_add_left hrom Config.programBase)]
  rfl

/-- Settles O9: the font and the ROM are two runs of writes at disjoint addresses over a memory that reads 0. -/
theorem launchPlacesImages : Obligations.LaunchPlacesImages := by
  intro font rom hrom
  rw [launch_eq hrom]
  have hlen : font.toList.length = 80 := Vector.length_toList
  have hfont : 0 + font.toList.length ≤ Config.memSize := by rw [hlen]; decide
  have hfit : 0x200 + rom.length ≤ Config.memSize := Nat.add_le_add_left hrom 0x200
  have hwf : (Memory.writeN [] 0 font.toList).wf := Memory.wf_writeN Memory.wf_nil (.inr hfont)
  have hzero {a : Nat} (h80 : 80 ≤ a) (ha : a < 0x200 ∨ 0x200 + rom.length ≤ a) :
      ((Memory.writeN [] 0 font.toList).writeN 0x200 rom).read a = 0 := by
    rw [Memory.read_writeN_other _ ha, Memory.read_writeN_other _ (.inr (by omega))]
    rfl
  refine ⟨rfl, rfl, fun k hk => ?_, fun a h80 ha => hzero h80 (.inl ha), fun k hk => Memory.read_writeN hwf hk hfit,
    fun a ha => hzero (by omega) (.inr ha)⟩
  have hread := Memory.read_writeN Memory.wf_nil (hlen ▸ hk) hfont
  rw [Nat.zero_add] at hread
  exact (Memory.read_writeN_other _ (.inl (hk.trans (by decide)))).trans (hread.trans (Vector.getElem_toList _))

/-! ## The end of a run (70_reset_and_hazards.md R194) -/

/-- Whether a run is finished depends on neither the inputs, nor the counter, nor the trace. -/
theorem State.Finished.with_inputs {s : State} (hs : s.Finished) (inp : Inputs) (draws : Nat) (es : List Event) :
    { s with inputs := inp, draws := draws, events := es }.Finished := hs

/-- Fields that match the row of 1NNN dispatch to it: its mask leaves only the target free (R66). -/
theorem dispatch_of_jumpRow {f : Fields} (h : f.word &&& 0xF000 = 0x1000) : dispatch f = some (.jp f.address12) := by
  have hn0 := congrArg (fun w => (wordFields w).n0) h
  simp only [wordFields_and, wordFields_word] at hn0
  obtain ⟨n0, n1, n2, n3⟩ := f
  obtain rfl : n0 = 0x1 := by simpa [extractFields, highByte, nibble_and_fifteen] using hn0
  rfl

/-- The target of a jump is the low twelve bits of its word (R61, R62). -/
theorem zext16_address12 (f : Fields) : zext16 f.address12 = f.word &&& 0x0FFF := by
  have hlow : f.word.setWidth 12 = f.address12 := by rw [f.word_eq_addr, BitVec.setWidth_append_eq_right]
  apply BitVec.eq_of_toNat_eq
  rw [zext16_toNat_addr, ← hlow, BitVec.toNat_setWidth]
  exact (Nat.and_two_pow_sub_one_eq_mod f.word.toNat 12).symm

/-- Settles O57: the step runs the jump, whose target is PC, so the same word stands there again. -/
theorem finishedRunStays : Obligations.FinishedRunStays := by
  intro s hfin
  have ⟨hfault, w, hword, hrow, htarget⟩ := hfin
  have hdec : decodeWord w = .ok (.jp (wordFields w).address12) :=
    decodeWord_of_dispatch (dispatch_of_jumpRow (by rwa [word_wordFields]))
  have hpc : (wordFields w).address12.setWidth 16 = s.pc :=
    (zext16_address12 _).trans (by rw [word_wordFields, htarget])
  have hstep := step_of_fetch hfault (State.fetch_of_wordAtPc hword) hdec
  rw [(jumpsSetPc s.afterFetch _).1, hpc] at hstep
  exact ⟨_, hstep, rfl, hfin.with_inputs ..⟩

/-! ## The invariant along the host's moves (70_reset_and_hazards.md R192, R195) -/

/-- A load writes within memory or takes LoadError. -/
theorem State.Inv.load {s : State} (hs : s.Inv) (offset : Nat) (bytes : List Byte) : (s.load offset bytes).Inv := by
  obtain hfit | hpast := le_or_gt (offset + bytes.length) Config.memSize
  · rw [State.load_of_le s hfit]
    exact { hs with memWf := Memory.wf_writeN hs.memWf (.inr hfit) }
  · rw [State.load_of_gt s hpast]
    exact hs.with_fault_events _ s.events

/-- A host reset leaves the reset state, while the clock goes on from a sample that is not before the origin. -/
theorem State.Inv.hostReset {s : State} (hs : s.Inv) : s.hostReset.Inv := by
  have hsince : s.inputs.timeExec ≤ s.hostReset.inputs.timeAudio := Inputs.draw_since ..
  have horigin : 0 ≤ s.hostReset.inputs.timeAudio := (hs.clockOrigin.trans hs.clockOrder).trans hsince
  exact { resetMeetsInvariant with
    clockOrigin := horigin
    dtStamp := horigin
    stStamp := horigin
    clockOrder := Inputs.draw_order .. }

/-- Every move of the host keeps the invariant that holds at reset. -/
theorem Reaches.inv {started : Bool} {s : State} (h : Reaches started s) : s.Inv := by
  induction h with
  | reset => exact resetMeetsInvariant
  | load s offset bytes _ hs => exact hs.load offset bytes
  | step started s t _ hstep hs => exact stepKeepsInvariant s t hs hstep
  | hostReset started s _ hs => exact hs.hostReset

/-- Settles O60: by induction on the host's moves. -/
theorem reachableStatesMeetInvariant : Obligations.ReachableStatesMeetInvariant :=
  fun _ ⟨_, h⟩ => h.inv

end Sys2Proof.Machine
end
